-- ==== Sys2Proof/Word.lean ====
section
/-! DEFINITION. The word types of T30FD. Every value of the spec is an unsigned integer of a stated width (R9). -/

namespace Sys2Proof

/-- A byte of the frame buffer: bits 7 to 0, bit 0 the least significant (R7). -/
abbrev Byte := BitVec 8

/-- A T.30 bit number as a command spells it: 8 bits, 1-based, legal from BIT_MIN to BIT_MAX, 1 to 128 by default (R6, R8,
R82). -/
abbrev BitNum := BitVec 8

/-- A command word or a host register word (R9). -/
abbrev Word32 := BitVec 32

/-- An output record word (R91). -/
abbrev Record := BitVec 64

end Sys2Proof
end

