-- ==== Sys2Proof/Config.lean ====
section
/-! DEFINITION. What an implementation of T30FD fixes (R6): the numbers of the parameter table, and the types of the
layout L (R131, R136, R150). The checked layout, the whole configuration and the open layout stand in
Machine/Configuration.lean, after the checks of Machine/Layout.lean. -/

namespace Sys2Proof

/-- How the numbers of R6 hang together. R6 derives LAST_OCTET from R110 at b = BIT_MAX, and OI_END is the state past it,
for whatever BIT_MAX and FIRST_OCTET are. The rest is read from the widths the spec fixes (DEDUCED, log 5): bit numbers start at 1 (R8), frame
bytes 0 to 2 are the header (R13), OI has 5 bits (R27), a table or pair id 4 bits (R81), LP[0] is always defined (R136),
and an index of a tag table never is 0xFF (R130). -/
abbrev Params.Coherent (bitMin bitMax firstOctet lastOctet oiEnd nTT ttMax nLP : Nat) : Prop :=
  (1 ≤ bitMin ∧ bitMin ≤ bitMax) ∧ (3 ≤ firstOctet ∧ lastOctet = (bitMax - 1) / 8 + firstOctet) ∧
  (oiEnd = lastOctet + 1 ∧ oiEnd ≤ 31) ∧ nTT ≤ 16 ∧ ttMax ≤ 255 ∧ (1 ≤ nLP ∧ nLP ≤ 16)

/-- The numbers among R6's parameters, each an argument of the model with the default that R6 shows. -/
structure Params where
  /-- BIT_MIN, the least legal T.30 bit number. -/
  bitMin : Nat := 1
  /-- BIT_MAX, the largest legal T.30 bit number. -/
  bitMax : Nat := 128
  /-- FIRST_OCTET, the frame index of the first capability octet. -/
  firstOctet : Nat := 3
  /-- LAST_OCTET, the frame index of the last capability octet. -/
  lastOctet : Nat := 18
  /-- OI_END, the walker's terminal index. -/
  oiEnd : Nat := 19
  /-- N_TT, the number of tag-table slots. -/
  nTT : Nat := 16
  /-- TT_MAX, the most entries a tag table may have. -/
  ttMax : Nat := 255
  /-- N_LP, the number of label-pair slots. -/
  nLP : Nat := 16
  ok : Params.Coherent bitMin bitMax firstOctet lastOctet oiEnd nTT ttMax nLP := by decide
  deriving DecidableEq, Repr, Inhabited

/-- The frame class: the two layout variants (R28, R153). -/
inductive FrameClass where
  | disDtc
  | dcs
  deriving DecidableEq, Repr

/-- CLS as a bit: 1 means DCS, 0 means DIS/DTC (R28). -/
def FrameClass.bit : FrameClass → BitVec 1
  | .disDtc => 0
  | .dcs => 1

/-- The three field kinds (R150). -/
inductive FieldKind where
  | rsv
  | bool
  | coded
  deriving DecidableEq, Repr

/-- A field descriptor of the layout (R150). -/
structure Descriptor where
  kind : FieldKind
  /-- The first T.30 bit number (`start`). -/
  start : BitNum
  /-- The last T.30 bit number (`end`). -/
  stop : BitNum
  /-- The descriptor id, carried into the record. -/
  desc : Byte
  /-- The label-pair id of a BOOL field, the tag-table id of a CODED field, 0 for RSV. -/
  aux : BitVec 4
  deriving DecidableEq, Repr

/-- A tag-table entry: a raw value and an opaque label id (R131). -/
structure TagEntry where
  val : Byte
  lab : Byte
  deriving DecidableEq, Repr

/-- A tag table: entries in table order (R131). -/
abbrev TagTable := List TagEntry

/-- A label of a label pair: the two default labels, or an opaque label id of the layout (R136). -/
inductive Label where
  /-- "Set". -/
  | set
  /-- "Not set". -/
  | notSet
  /-- A label the layout defines. -/
  | id (n : Byte)
  deriving DecidableEq, Repr

/-- A label pair: the labels of a bit that is 1 and of a bit that is 0 (R136). -/
structure LabelPair where
  yes : Label
  no : Label
  deriving DecidableEq, Repr

/-- LP[0], always ("Set", "Not set") (R136). -/
def defaultPair : LabelPair := ⟨.set, .notSet⟩

/-- The layout L (R150). A list that is shorter than its index range leaves the rest without descriptors, or
undefined. -/
structure Layout where
  /-- L.fields(0, i), for octets FIRST_OCTET, FIRST_OCTET + 1, ... in order. -/
  disDtc : List (List Descriptor) := []
  /-- L.fields(1, i), for octets FIRST_OCTET, FIRST_OCTET + 1, ... in order. -/
  dcs : List (List Descriptor) := []
  /-- TT[0], TT[1], ...: undefined, or a table. -/
  tagTables : List (Option TagTable) := []
  /-- LP[1], LP[2], ...: undefined, or a pair. LP[0] is not the layout's to define (R136). -/
  labelPairs : List (Option LabelPair) := []
  deriving DecidableEq, Repr, Inhabited

/-- EXT_FIRST_OCTET, the first octet whose bit 8 acts as extension indicator: 3 or 5 (R6, R154). -/
inductive ExtFirst where
  | octet3
  | octet5
  deriving DecidableEq, Repr

/-- EXT_FIRST_OCTET as an octet index. -/
def ExtFirst.index : ExtFirst → Nat
  | .octet3 => 3
  | .octet5 => 5

end Sys2Proof
end

