-- ==== Sys2Proof/Syntax.lean ====
section
/-! DEFINITION. The commands of T30FD-CMD version 1: `Instr`, one constructor per row of the opcode table (R83), and
`Source`, the assembler's commands (R88) with its pseudo-instructions (R89). -/

namespace Sys2Proof

/-- A decoded command. Every operand is an immediate field of the command word, zero-extended (R82); its type is the
field's width (R81), so every value of `Instr` is the meaning of exactly one word. -/
inductive Instr where
  /-- MAP b (R112). -/
  | map (b : BitNum)
  /-- TESTBIT b (R113). -/
  | testbit (b : BitNum)
  /-- SETBIT b, v (R114). -/
  | setbit (b : BitNum) (v : BitVec 1)
  /-- GETFIELD s, e (R115). -/
  | getfield (s e : BitNum)
  /-- RSVCHK b, d (R137). -/
  | rsvchk (b : BitNum) (d : Byte)
  /-- BOOLFLD b, d, lp (R138). -/
  | boolfld (b : BitNum) (d : Byte) (lp : BitVec 4)
  /-- CODEDFLD s, e, d, tt (R139). -/
  | codedfld (s e : BitNum) (d : Byte) (tt : BitVec 4)
  /-- DECODE (R155). -/
  | decode
  deriving DecidableEq, Repr

/-- A command as the assembler reads it (R88), its operands the integers written, with the pseudo-instructions of
R89. -/
inductive Source where
  | map (b : Nat)
  | testbit (b : Nat)
  | setbit (b v : Nat)
  | getfield (s e : Nat)
  | rsvchk (b d : Nat)
  | boolfld (b d lp : Nat)
  | codedfld (s e d tt : Nat)
  | decode
  /-- `clrbit b` is `setbit b, 0` (R89). -/
  | clrbit (b : Nat)
  /-- `getbit b` is `getfield b, b` (R89). -/
  | getbit (b : Nat)
  /-- `boolfld b, d` is `boolfld b, d, 0` (R89). -/
  | boolfldDefault (b d : Nat)
  /-- `getoctet i` is `getfield 8*(i-3)+1, 8*(i-3)+8`, for 3 <= i <= 18 (R89; 3 and 18 are FIRST_OCTET and LAST_OCTET,
  log 5). -/
  | getoctet (i : Nat)
  deriving DecidableEq, Repr

/-- The assembler's text of a command (R88): the mnemonic in lower case and decimal operands separated by a comma and
a space. -/
def Source.text : Source → String
  | .map b => "map " ++ toString b
  | .testbit b => "testbit " ++ toString b
  | .setbit b v => "setbit " ++ toString b ++ ", " ++ toString v
  | .getfield s e => "getfield " ++ toString s ++ ", " ++ toString e
  | .rsvchk b d => "rsvchk " ++ toString b ++ ", " ++ toString d
  | .boolfld b d lp => "boolfld " ++ toString b ++ ", " ++ toString d ++ ", " ++ toString lp
  | .codedfld s e d tt =>
    "codedfld " ++ toString s ++ ", " ++ toString e ++ ", " ++ toString d ++ ", " ++ toString tt
  | .decode => "decode"
  | .clrbit b => "clrbit " ++ toString b
  | .getbit b => "getbit " ++ toString b
  | .boolfldDefault b d => "boolfld " ++ toString b ++ ", " ++ toString d
  | .getoctet i => "getoctet " ++ toString i

end Sys2Proof
end

