-- ==== Sys2Proof/WellFormed.lean ====
section
/-! DEFINITION. Which assembler commands are well formed: every operand fits its field (R88), and `getoctet` names a
capability octet (R89), of whatever FIRST_OCTET and LAST_OCTET are (R6). A decoded `Instr` needs no check: its operand types are the fields' widths (R81). A bit number
outside BIT_MIN to BIT_MAX is well formed; it faults at execution (R82, R88). -/

namespace Sys2Proof

/-- An operand fits a field of `w` bits. -/
def fitsField (w n : Nat) : Bool := n < 2 ^ w

/-- b, s, e and d are in 0..255, lp and tt in 0..15, v in 0..1 (R88); i of `getoctet` is a capability octet (R89). -/
def Source.wellFormed (p : Params) : Source → Bool
  | .map b => fitsField 8 b
  | .testbit b => fitsField 8 b
  | .setbit b v => fitsField 8 b && fitsField 1 v
  | .getfield s e => fitsField 8 s && fitsField 8 e
  | .rsvchk b d => fitsField 8 b && fitsField 8 d
  | .boolfld b d lp => fitsField 8 b && fitsField 8 d && fitsField 4 lp
  | .codedfld s e d tt => fitsField 8 s && fitsField 8 e && fitsField 8 d && fitsField 4 tt
  | .decode => true
  | .clrbit b => fitsField 8 b
  | .getbit b => fitsField 8 b
  | .boolfldDefault b d => fitsField 8 b && fitsField 8 d
  | .getoctet i => p.firstOctet ≤ i && i ≤ p.lastOctet

end Sys2Proof
end

