-- ==== Sys2Proof/Decode.lean ====
section
/-! DEFINITION. The decoder of the command word, total on every 32-bit word (R87), the encoder, and the assembler
(R88, R89). -/

namespace Sys2Proof

/-- Why a word selects no row of the opcode map; either way its decode step raises ILLEGAL_CMD. -/
inductive DecodeError where
  /-- OP is 0x0 or 0x9 to 0xF (R85). -/
  | reservedOpcode
  /-- OP is 0x1 to 0x8 and a should-be-zero bit is set (R84). -/
  | sbzNotZero
  deriving DecidableEq, Repr

/-- OP, bits 31:28 (R81). -/
def opField (w : Word32) : BitVec 4 := w.extractLsb' 28 4
/-- A, bits 27:20 (R81): b or s. -/
def aField (w : Word32) : BitVec 8 := w.extractLsb' 20 8
/-- B, bits 19:12 (R81): e. -/
def bField (w : Word32) : BitVec 8 := w.extractLsb' 12 8
/-- D, bits 11:4 (R81): d. -/
def dField (w : Word32) : BitVec 8 := w.extractLsb' 4 8
/-- T, bits 3:0 (R81): lp or tt. -/
def tField (w : Word32) : BitVec 4 := w.extractLsb' 0 4
/-- V, bit 0 (R81): v of SETBIT. -/
def vField (w : Word32) : BitVec 1 := w.extractLsb' 0 1

/-- The command, if the should-be-zero bits of its row are zero (R84). -/
def whenZero (sbzIsZero : Bool) (i : Instr) : Except DecodeError Instr :=
  if sbzIsZero then .ok i else .error .sbzNotZero

/-- decodeCmd (R87). -/
def decodeCmd (w : Word32) : Except DecodeError Instr :=
  if opField w = 0x1 then whenZero (w.extractLsb' 0 20 = 0) (.map (aField w))
  else if opField w = 0x2 then whenZero (w.extractLsb' 0 20 = 0) (.testbit (aField w))
  else if opField w = 0x3 then whenZero (w.extractLsb' 1 19 = 0) (.setbit (aField w) (vField w))
  else if opField w = 0x4 then whenZero (w.extractLsb' 0 12 = 0) (.getfield (aField w) (bField w))
  else if opField w = 0x5 then whenZero (bField w = 0 && tField w = 0) (.rsvchk (aField w) (dField w))
  else if opField w = 0x6 then whenZero (bField w = 0) (.boolfld (aField w) (dField w) (tField w))
  else if opField w = 0x7 then .ok (.codedfld (aField w) (bField w) (dField w) (tField w))
  else if opField w = 0x8 then whenZero (w.extractLsb' 0 28 = 0) .decode
  else .error .reservedOpcode

/-- A command word from its fields: OP<<28 | A<<20 | B<<12 | D<<4 | T (R81, R88). -/
def packCmd (op : BitVec 4) (a b d : BitVec 8) (t : BitVec 4) : Word32 := op ++ a ++ b ++ d ++ t

/-- The word of a command, from the opcode map (R83); V is bit 0 of the T field (R81). -/
def encode : Instr → Word32
  | .map b => packCmd 0x1 b 0 0 0
  | .testbit b => packCmd 0x2 b 0 0 0
  | .setbit b v => packCmd 0x3 b 0 0 (v.zeroExtend 4)
  | .getfield s e => packCmd 0x4 s e 0 0
  | .rsvchk b d => packCmd 0x5 b 0 d 0
  | .boolfld b d lp => packCmd 0x6 b 0 d lp
  | .codedfld s e d tt => packCmd 0x7 s e d tt
  | .decode => packCmd 0x8 0 0 0 0

/-- One row of the opcode map (R83): the values `match` and `mask`. -/
structure OpcodeRow where
  matchBits : Word32
  maskBits : Word32
  deriving DecidableEq, Repr

/-- The opcode map's rows 0x1 to 0x8, as R83 prints them. -/
def opcodeMap : List OpcodeRow :=
  [ ⟨0x10000000, 0xF00FFFFF⟩, ⟨0x20000000, 0xF00FFFFF⟩, ⟨0x30000000, 0xF00FFFFE⟩, ⟨0x40000000, 0xF0000FFF⟩,
    ⟨0x50000000, 0xF00FF00F⟩, ⟨0x60000000, 0xF00FF000⟩, ⟨0x70000000, 0xF0000000⟩, ⟨0x80000000, 0xFFFFFFFF⟩ ]

/-- A word selects a row when `w & mask == match` (R83). -/
def OpcodeRow.selects (r : OpcodeRow) (w : Word32) : Bool := w &&& r.maskBits = r.matchBits

/-- The command a source line stands for, its pseudo-instructions expanded (R89; the 3 of `getoctet` is FIRST_OCTET,
log 5); none where the assembler refuses an
operand (R88). -/
def Source.toInstr (p : Params) (c : Source) : Option Instr :=
  if c.wellFormed p then
    some <| match c with
      | .map b => .map (.ofNat 8 b)
      | .testbit b => .testbit (.ofNat 8 b)
      | .setbit b v => .setbit (.ofNat 8 b) (.ofNat 1 v)
      | .getfield s e => .getfield (.ofNat 8 s) (.ofNat 8 e)
      | .rsvchk b d => .rsvchk (.ofNat 8 b) (.ofNat 8 d)
      | .boolfld b d lp => .boolfld (.ofNat 8 b) (.ofNat 8 d) (.ofNat 4 lp)
      | .codedfld s e d tt => .codedfld (.ofNat 8 s) (.ofNat 8 e) (.ofNat 8 d) (.ofNat 4 tt)
      | .decode => .decode
      | .clrbit b => .setbit (.ofNat 8 b) 0
      | .getbit b => .getfield (.ofNat 8 b) (.ofNat 8 b)
      | .boolfldDefault b d => .boolfld (.ofNat 8 b) (.ofNat 8 d) 0
      | .getoctet i => .getfield (.ofNat 8 (8 * (i - p.firstOctet) + 1)) (.ofNat 8 (8 * (i - p.firstOctet) + 8))
  else none

/-- The word the assembler produces (R88). -/
def Source.assemble (p : Params) (c : Source) : Option Word32 := (c.toInstr p).map encode

/-- The 32-bit command word whose low `nbits` bits are those of `w` and whose other bits are zero. A command is one
word (R80), written to CMD whole. -/
def commandWord (nbits w : Nat) : Word32 := .ofNat 32 (w % 2 ^ nbits)

/-- The command the decoder reads from the opcode table's bits. -/
def decodeTableWord (nbits w : Nat) : Option Instr := (decodeCmd (commandWord nbits w)).toOption

end Sys2Proof
end

