-- ==== Sys2Proof/Machine/Layout.lean ====
section
/-! DEFINITION. Reading the layout L (R131, R136, R150) and the checks a layout must pass to be a configuration
(R151). -/

namespace Sys2Proof.Machine

/-- lo(i) = 8(i-3)+1, the first T.30 bit of octet i (R151); its 3 is FIRST_OCTET (log 5). -/
def octetLo (p : Params) (i : Nat) : Nat := 8 * (i - p.firstOctet) + 1

/-- hi(i) = 8(i-3)+8, the last T.30 bit of octet i, its extension indicator (R151, R154); its 3 is FIRST_OCTET
(log 5). -/
def octetHi (p : Params) (i : Nat) : Nat := 8 * (i - p.firstOctet) + 8

/-- How many capability octets there are. -/
def octetCount (p : Params) : Nat := p.lastOctet - p.firstOctet + 1

/-- The field lists of one frame class. -/
def classFields (L : Layout) : FrameClass → List (List Descriptor)
  | .disDtc => L.disDtc
  | .dcs => L.dcs

/-- L.fields(cls, i), for a capability octet i (R150); no other octet has descriptors. -/
def layoutFields (p : Params) (L : Layout) (cls : FrameClass) (i : Nat) : List Descriptor :=
  if p.firstOctet ≤ i ∧ i ≤ p.lastOctet then (classFields L cls).getD (i - p.firstOctet) [] else []

/-- TT[t], or none where it is undefined (R131). -/
def tagTable (L : Layout) (t : BitVec 4) : Option TagTable := L.tagTables.getD t.toNat none

/-- LP[p], or none where it is undefined; LP[0] is always the default pair (R136). -/
def labelPair (L : Layout) (p : BitVec 4) : Option LabelPair :=
  if p = 0 then some defaultPair else L.labelPairs.getD (p.toNat - 1) none

/-- A check of every octet's field list, in both classes (R151: "For every cls and every i in 3..18"; 3 and 18 are
FIRST_OCTET and LAST_OCTET, log 5). -/
def everyOctet (p : Params) (L : Layout) (check : Nat → List Descriptor → Bool) : Bool :=
  [FrameClass.disDtc, FrameClass.dcs].all fun cls =>
    (List.range (octetCount p)).all fun k => check (k + p.firstOctet) (layoutFields p L cls (k + p.firstOctet))

/-- WF1 (in octet): lo(i) <= start <= end <= hi(i). -/
def wfInOctet (p : Params) (L : Layout) : Bool :=
  everyOctet p L fun i ds => ds.all fun d =>
    octetLo p i ≤ d.start.toNat && d.start.toNat ≤ d.stop.toNat && d.stop.toNat ≤ octetHi p i

/-- Consecutive descriptors p, q have p.end < q.start. -/
def risingFields : List Descriptor → Bool
  | p :: q :: ds => p.stop.toNat < q.start.toNat && risingFields (q :: ds)
  | _ => true

/-- WF2 (order, no overlap). -/
def wfOrder (p : Params) (L : Layout) : Bool := everyOctet p L fun _ ds => risingFields ds

/-- WF3 (one-bit kinds): kind RSV or BOOL implies start = end. -/
def wfOneBit (p : Params) (L : Layout) : Bool :=
  everyOctet p L fun _ ds => ds.all fun d => d.kind = .coded || d.start = d.stop

/-- WF4 (width): kind CODED has 1 <= end - start + 1 <= 8. -/
def wfWidth (p : Params) (L : Layout) : Bool :=
  everyOctet p L fun _ ds => ds.all fun d =>
    d.kind ≠ .coded || d.start.toNat ≤ d.stop.toNat && d.stop.toNat - d.start.toNat + 1 ≤ 8

/-- WF5 (references): BOOL implies LP[aux] is defined, CODED implies TT[aux] is defined, RSV implies aux = 0. -/
def wfReferences (p : Params) (L : Layout) : Bool :=
  everyOctet p L fun _ ds => ds.all fun d =>
    match d.kind with
    | .rsv => d.aux = 0
    | .bool => (labelPair L d.aux).isSome
    | .coded => (tagTable L d.aux).isSome

/-- WF6 (tables): every defined TT[t] has at most TT_MAX entries. LP[0] = ("Set", "Not set") holds by `labelPair`. -/
def wfTables (p : Params) (L : Layout) : Bool :=
  L.tagTables.all fun t => match t with
    | some es => es.length ≤ p.ttMax
    | none => true

/-- L has no more slots than R6 gives it: a field list per capability octet, N_TT tag tables, N_LP label pairs (LP[0] among
them). No check of R151, but a limit of the model's lists (DEDUCED, log 5). -/
def wfShape (p : Params) (L : Layout) : Bool :=
  L.disDtc.length ≤ octetCount p && L.dcs.length ≤ octetCount p && L.tagTables.length ≤ p.nTT
    && L.labelPairs.length < p.nLP

/-- Well-formedness of L (R151): every check, within the limits of `wfShape`. A layout that fails one is refused as
configuration. -/
def layoutOk (p : Params) (L : Layout) : Bool :=
  wfShape p L && wfInOctet p L && wfOrder p L && wfOneBit p L && wfWidth p L && wfReferences p L && wfTables p L

/-- The layout without any descriptor, table or pair is well-formed, whatever the parameters. -/
theorem layoutOk_empty (p : Params) : layoutOk p {} = true := by
  have hf : ∀ cls i, layoutFields p {} cls i = [] := by
    intro cls i
    unfold layoutFields
    cases cls <;> simp [classFields]
  have hp := p.ok.2.2.2.2.2.1
  simp [layoutOk, wfShape, wfInOctet, wfOrder, wfOneBit, wfWidth, wfReferences, wfTables, everyOctet, hf, risingFields]
  omega

end Sys2Proof.Machine
end

