-- ==== Sys2Proof/Machine/Configuration.lean ====
section
/-! DEFINITION. A configuration of T30FD: every parameter of R6 as an argument of the model, with a layout that has
passed the checks of R151 (a layout that fails one cannot be put into a configuration: it is refused). The spec calls
these configuration, not state (R32); State carries one, which no step changes, so that every claim quantifies over it
(log 1). -/

namespace Sys2Proof

/-- A layout that passes every check of R151 under the parameters p. -/
structure CheckedLayout (p : Params) where
  raw : Layout := {}
  ok : Machine.layoutOk p raw = true := by exact Machine.layoutOk_empty _
  deriving DecidableEq, Repr, Inhabited

/-- R151's gate: the layout as configuration, or its refusal. -/
def CheckedLayout.accept (p : Params) (L : Layout) : Option (CheckedLayout p) :=
  if h : Machine.layoutOk p L = true then some ⟨L, h⟩ else none

/-- FB_SIZE: at least 19 (R6), at most the 256 offsets the register map gives FB (R54; DEDUCED, log 4). -/
structure FbSize where
  bytes : Nat := 256
  ok : 19 ≤ bytes ∧ bytes ≤ 256 := by decide
  deriving DecidableEq, Repr, Inhabited

/-- The parameters of R6, each an argument of the model with the default shown there. L has no default. -/
structure Config where
  /-- BIT_MIN, BIT_MAX, FIRST_OCTET, LAST_OCTET, OI_END, N_TT, TT_MAX, N_LP. -/
  params : Params := {}
  fbSize : FbSize := {}
  extFirst : ExtFirst := .octet3
  typeMask : Byte := 0xFE
  /-- OPEN; the default is the spec's, from general knowledge (log 3). -/
  dcsType : Byte := 0x82
  layout : CheckedLayout params
  deriving DecidableEq, Repr

/-- L of the machine that `State.reset` describes: OPEN (R6, R150), some layout that passes R151 under the default
parameters, and nothing in Lean
can say which (log 2). -/
opaque Config.openLayout : CheckedLayout {}

/-- The default parameters (R6) with the open layout. -/
def Config.standard : Config := { layout := Config.openLayout }

end Sys2Proof
end

