-- ==== Sys2Proof/Machine/Memory.lean ====
section
/-! DEFINITION. The frame buffer as plain data: a list of (index, byte) pairs with strictly rising indices. A byte that
is not listed is "unwritten" (R21): it has no value, so no entry equals what an unlisted index reads as. -/

namespace Sys2Proof.Machine

/-- Frame-buffer contents: the written bytes, by rising index. -/
abbrev Memory := List Host.Cell

/-- The byte at index `i`, or none where it is unwritten (R21). -/
def Memory.read : Memory → Nat → Option Byte
  | [], _ => none
  | (k, v) :: m, i => if k = i then some v else Memory.read m i

/-- The contents after byte `i` becomes `v` (R10, MemWrite). -/
def Memory.write : Memory → Nat → Byte → Memory
  | [], i, v => [(i, v)]
  | (k, w) :: m, i, v =>
    if i < k then (i, v) :: (k, w) :: m
    else if i = k then (i, v) :: m
    else (k, w) :: Memory.write m i v

/-- The canonical form: indices strictly rise. -/
def Memory.wf : Memory → Bool
  | (k, _) :: (l, w) :: m => k < l && Memory.wf ((l, w) :: m)
  | _ => true

/-- Every listed index is below `n`. -/
def Memory.below (m : Memory) (n : Nat) : Bool := m.all fun c => c.1 < n

end Sys2Proof.Machine
end

