-- ==== Sys2Proof/Machine/State.lean ====
section
/-! DEFINITION. The state of T30FD as plain data (10_state.md), and the reasons a step can stop. -/

namespace Sys2Proof.Machine

/-- Why the machine stops. -/
inductive Fault where
  /-- The model fault Uninit (R216): a read of a frame byte that nothing has written, by the engine (TESTBIT, SETBIT,
  GETFIELD, RSVCHK, BOOLFLD, CODEDFLD, DECODE and its walk) or by the host. The hardware would return some unspecified
  byte; the spec makes the model stuck. Safe: no claim can rest on the byte. -/
  | uninit
  deriving DecidableEq, Repr

/-- Why a step has no meaning. -/
inductive Refusal where
  /-- Raised by `exec` for an instruction that has no meaning yet, under its mnemonic. No arm raises it. Safe. -/
  | notModelled (mnemonic : String)
  deriving DecidableEq, Repr

/-- The fault codes that STATUS records (R211); 9 to 15 are reserved and never raised. -/
inductive FaultCode where
  | none
  | illegalCmd
  | bitRange
  | fieldOrder
  | fieldSpan
  | badTable
  | outOfFrame
  | badLength
  | bus
  deriving DecidableEq, Repr

/-- The engine's phase (R26). -/
inductive Phase where
  | idle
  | pending
  | walk
  deriving DecidableEq, Repr

/-- TERM, the outcome of the last DECODE (R29). -/
inductive Term where
  | none
  | complete
  | short
  | beyond
  deriving DecidableEq, Repr

/-- A host bus read: its width in bits and its byte offset (R50, R60). -/
structure HostRead where
  width : Nat
  off : BitVec 12
  deriving DecidableEq, Repr

/-- A host bus write: its width in bits, its byte offset and the value on the bus (R50, R60). -/
structure HostWrite where
  width : Nat
  off : BitVec 12
  value : Word32
  deriving DecidableEq, Repr

/-- What the host does next (R94): a read, a write, or `wait`, which reads STATUS until BUSY reads 0. -/
inductive HostOp where
  | read (r : HostRead)
  | write (w : HostWrite)
  | wait
  deriving DecidableEq, Repr

/-- Whose turn it is in the interleaving of host and engine steps (R251), or a RESET between two steps (R240). -/
inductive Turn where
  | host
  | engine
  | reset
  deriving DecidableEq, Repr

/-- The machine's state. STATUS.BUSY is derived from `phase` (R35) and STATUS bits 31:19 are always 0 (R25), so neither
is stored. -/
structure State where
  /-- FB, the frame buffer (R20, R21). -/
  fb : Memory
  /-- FLEN, the frame length (R22). -/
  flen : BitVec 9
  /-- CMDQ, the hidden command latch (R23). -/
  cmdq : Word32
  /-- RES, the result register (R24). -/
  res : Word32
  /-- STATUS.TERM (R29). -/
  term : Term
  /-- STATUS.FAULT, sticky (R30). -/
  fault : Bool
  /-- STATUS.FCODE, the first fault's code (R30). -/
  fcode : FaultCode
  /-- STATUS.CLS, the frame class (R28). -/
  cls : FrameClass
  /-- STATUS.OI, the walker octet index (R27). -/
  oi : BitVec 5
  /-- STATUS.ERR, of the most recent command (R30). -/
  err : Bool
  /-- STATUS.ECODE, of the most recent command (R30). -/
  ecode : FaultCode
  /-- The engine's phase (R26). -/
  phase : Phase
  /-- OUT, the records emitted, oldest first (R31). -/
  out : List Record
  /-- The held host write (R62). -/
  held : Option HostWrite
  /-- The configuration; no step changes it (R32; log 1). -/
  config : Config
  /-- The model's own: the host's operations still to come, in order (log 8). -/
  hostQueue : List HostOp
  /-- The model's own: what the host's reads returned, oldest first (log 8). -/
  hostReads : List Word32
  /-- The model's own: whose turns come next; when empty, the engine moves while it is busy (log 8). -/
  schedule : List Turn
  deriving DecidableEq, Repr

/-- The machine right after reset under configuration `c` (R37, R240, R241), with no host operation to come. -/
def State.resetUnder (c : Config) : State where
  fb := []
  flen := 0
  cmdq := 0
  res := 0
  term := .none
  fault := false
  fcode := .none
  cls := .disDtc
  oi := 0
  err := false
  ecode := .none
  phase := .idle
  out := []
  held := none
  config := c
  hostQueue := []
  hostReads := []
  schedule := []

/-- The machine right after reset: the default parameters of R6 and the open layout (log 2, log 3). -/
def State.reset : State := State.resetUnder Config.standard

end Sys2Proof.Machine
end

