-- ==== Sys2Proof/Machine/Flags.lean ====
section
/-! DEFINITION. The STATUS register: its word (R25), BUSY (R35), and the rules that write its fault fields (R212, R213,
R215). -/

namespace Sys2Proof.Machine

/-- The engine is busy: its phase is PENDING or WALK (R35). -/
def Phase.busy : Phase → Bool
  | .idle => false
  | .pending => true
  | .walk => true

/-- STATUS.BUSY (R35). -/
def State.busy (s : State) : Bool := s.phase.busy

/-- TERM's 2-bit code (R29). -/
def Term.code : Term → BitVec 2
  | .none => 0
  | .complete => 1
  | .short => 2
  | .beyond => 3

/-- A fault code's 4-bit value (R211). -/
def FaultCode.code : FaultCode → BitVec 4
  | .none => 0
  | .illegalCmd => 1
  | .bitRange => 2
  | .fieldOrder => 3
  | .fieldSpan => 4
  | .badTable => 5
  | .outOfFrame => 6
  | .badLength => 7
  | .bus => 8

/-- The STATUS word: BUSY[0], TERM[2:1], FAULT[3], FCODE[7:4], CLS[8], OI[13:9], ERR[14], ECODE[18:15], zeros above
(R25). -/
def statusWord (s : State) : Word32 :=
  0#13 ++ s.ecode.code ++ BitVec.ofBool s.err ++ s.oi ++ s.cls.bit ++ s.fcode.code ++ BitVec.ofBool s.fault
    ++ s.term.code ++ BitVec.ofBool s.busy

/-- The sticky record of a fault with code c: the first fault since reset sets FAULT and FCODE, a later one changes
neither (R213). -/
def stickyFault (c : FaultCode) (s : State) : State :=
  if s.fault then s else { s with fault := true, fcode := c }

/-- ERR and ECODE of a command that faulted with code c (R212). -/
def markError (c : FaultCode) (s : State) : State := { s with err := true, ecode := c }

/-- ERR and ECODE of a command that did not fault (R212). -/
def clearError (s : State) : State := { s with err := false, ecode := .none }

end Sys2Proof.Machine
end

