-- ==== Sys2Proof/Machine/Operands.lean ====
section
/-! DEFINITION. Operand forms: T.30 bit numbers and ranges (R110, R111), bits of a byte, and the checks of operands in
the priority order of R217. -/

namespace Sys2Proof.Machine

/-- octetOf(b) = ((b - 1) >> 3) + 3, the frame byte index (R110); its 3 is FIRST_OCTET (R6, log 5). -/
def octetOf (p : Params) (b : BitNum) : Byte := ((b - 1) >>> 3) + .ofNat 8 p.firstOctet

/-- bitOf(b) = (b - 1) & 7, the bit position inside that byte, 0 the least significant (R110). -/
def bitOf (b : BitNum) : BitVec 3 := ((b - 1) &&& 7).extractLsb' 0 3

/-- The value of T.30 bit b in its octet o: o[bitOf(b)] (R113). -/
def bitValue (o : Byte) (b : BitNum) : BitVec 1 := BitVec.ofBool (o.getLsbD (bitOf b).toNat)

/-- The octet o with T.30 bit b written to v: (o & ~(1 << bitOf(b))) | (v << bitOf(b)) (R114). -/
def withBit (o : Byte) (b : BitNum) (v : BitVec 1) : Byte :=
  (o &&& ~~~(1#8 <<< (bitOf b).toNat)) ||| (v.zeroExtend 8 <<< (bitOf b).toNat)

/-- fieldValue(o, s, e) = (o >> bitOf(s)) & ((1 << w) - 1) with w = e - s + 1 (R111). -/
def fieldValue (o : Byte) (s e : BitNum) : Byte :=
  (o >>> (bitOf s).toNat) &&& BitVec.ofNat 8 (2 ^ (e.toNat - s.toNat + 1) - 1)

/-- 1 <= b <= 128 (R8, R110): BIT_MIN <= b <= BIT_MAX (R6, log 5). -/
def bitInRange (p : Params) (b : BitNum) : Bool := p.bitMin ≤ b.toNat && b.toNat ≤ p.bitMax

/-- The operand check of a one-bit command: BIT_RANGE (R211, R217). -/
def bitFault (p : Params) (b : BitNum) : Option FaultCode :=
  if bitInRange p b then none else some .bitRange

/-- The operand checks of a range command, in order: BIT_RANGE, FIELD_ORDER, FIELD_SPAN (R115, R211, R217). -/
def rangeFault (p : Params) (s e : BitNum) : Option FaultCode :=
  if !(bitInRange p s && bitInRange p e) then some .bitRange
  else if e < s then some .fieldOrder
  else if octetOf p s ≠ octetOf p e then some .fieldSpan
  else none

end Sys2Proof.Machine
end

