-- ==== Sys2Proof/Machine/Record.lean ====
section
/-! DEFINITION. The 64-bit output record (R91 to R93, R95), and what its consumer makes of it (R140, R141,
informative). -/

namespace Sys2Proof.Machine

/-- KIND values; T30FD emits no other (R92). -/
inductive RecordKind where
  | rsv
  | bool
  | coded
  | short
  | beyond
  deriving DecidableEq, Repr

/-- The 4-bit KIND code (R92). -/
def RecordKind.code : RecordKind → BitVec 4
  | .rsv => 0x1
  | .bool => 0x2
  | .coded => 0x3
  | .short => 0x8
  | .beyond => 0x9

/-- mkRec (R95): kind ++ d ++ s ++ e ++ val ++ tag ++ oct ++ aux ++ 0b0000000 ++ cls. -/
def mkRec (kind : RecordKind) (d s e val tag oct : Byte) (aux : BitVec 4) (cls : FrameClass) : Record :=
  kind.code ++ d ++ s ++ e ++ val ++ tag ++ oct ++ aux ++ 0#7 ++ cls.bit

/-- KIND, bits 63:60 (R91). -/
def recKind (r : Record) : BitVec 4 := r.extractLsb' 60 4
/-- DESC, bits 59:52 (R91). -/
def recDesc (r : Record) : Byte := r.extractLsb' 52 8
/-- START, bits 51:44 (R91). -/
def recStart (r : Record) : BitNum := r.extractLsb' 44 8
/-- END, bits 43:36 (R91). -/
def recEnd (r : Record) : BitNum := r.extractLsb' 36 8
/-- VALUE, bits 35:28 (R91). -/
def recValue (r : Record) : Byte := r.extractLsb' 28 8
/-- TAG, bits 27:20 (R91). -/
def recTag (r : Record) : Byte := r.extractLsb' 20 8
/-- OCTET, bits 19:12 (R91). -/
def recOctet (r : Record) : Byte := r.extractLsb' 12 8
/-- AUX, bits 11:8 (R91). -/
def recAux (r : Record) : BitVec 4 := r.extractLsb' 8 4
/-- Bits 7:1, always 0 (R91). -/
def recZero (r : Record) : BitVec 7 := r.extractLsb' 1 7
/-- CLS, bit 0 (R91). -/
def recCls (r : Record) : BitVec 1 := r.extractLsb' 0 1

/-- The kind of a record, or none: "A consumer receiving another value has received no record of T30FD" (R92). -/
def kindOf (r : Record) : Option RecordKind :=
  if recKind r = 0x1 then some .rsv
  else if recKind r = 0x2 then some .bool
  else if recKind r = 0x3 then some .coded
  else if recKind r = 0x8 then some .short
  else if recKind r = 0x9 then some .beyond
  else none

/-- A word of the form R91 and R92 give every record: a KIND of R92 and bits 7:1 zero. -/
def recordOk (r : Record) : Bool := (kindOf r).isSome && recZero r = 0

/-- What the consumer resolves a record to (R140). The text of a descriptor id depends on the class too. -/
inductive Resolution where
  /-- RSV: the description of the descriptor, with observed value 1 against expected 0. -/
  | reserved (cls : BitVec 1) (desc : Byte)
  /-- BOOL: the description with the yes or no label of LP[AUX]; none where LP[AUX] is undefined. -/
  | boolean (cls : BitVec 1) (desc : Byte) (label : Option Label)
  /-- CODED: the description with the label TT[AUX][TAG].lab. -/
  | coded (cls : BitVec 1) (desc : Byte) (label : Option Byte)
  /-- CODED with TAG = 0xFF: "Invalid". -/
  | invalid (cls : BitVec 1) (desc : Byte)
  /-- "frame is short". -/
  | short
  /-- "frame extends beyond current specification". -/
  | beyond
  deriving DecidableEq, Repr

/-- Text resolution, up to the layout's own strings (R140); none for a word that is no record of T30FD. -/
def resolve (L : Layout) (r : Record) : Option Resolution :=
  (kindOf r).map fun
    | .rsv => .reserved (recCls r) (recDesc r)
    | .bool =>
      .boolean (recCls r) (recDesc r)
        ((labelPair L (recAux r)).map fun p => if recValue r = 1 then p.yes else p.no)
    | .coded =>
      if recTag r = 0xFF then .invalid (recCls r) (recDesc r)
      else .coded (recCls r) (recDesc r)
        ((tagTable L (recAux r)).bind fun t => (t[(recTag r).toNat]?).map (·.lab))
    | .short => .short
    | .beyond => .beyond

/-- The strings R140 quotes from the source; the rest belong to the layout. -/
def Resolution.fixedText : Resolution → Option String
  | .boolean _ _ (some .set) => some "Set"
  | .boolean _ _ (some .notSet) => some "Not set"
  | .invalid _ _ => some "Invalid"
  | .short => some "frame is short"
  | .beyond => some "frame extends beyond current specification"
  | _ => none

/-- The character at display position p of a field record, which shows byte bit k = 7 - p (R141). -/
def patternChar (r : Record) (p : Nat) : Char :=
  let k := 7 - p
  let lo := (bitOf (recStart r)).toNat
  if lo ≤ k ∧ k ≤ (bitOf (recEnd r)).toNat then
    (if (recValue r).getLsbD (k - lo) then '1' else '0')
  else '.'

/-- The display pattern P[0..7] of a field record; terminal records have none (R141). -/
def displayPattern (r : Record) : Option (List Char) :=
  match kindOf r with
  | some .rsv | some .bool | some .coded => some ((List.range 8).map (patternChar r))
  | _ => none

end Sys2Proof.Machine
end

