-- ==== Sys2Proof/Machine/Ops.lean ====
section
/-! DEFINITION. The operations that the commands share: frame-buffer access (R10), records (R31), the end of a command
and the taking of a fault (R212). -/

namespace Sys2Proof.Machine

/-- What a step answers. -/
abbrev Result := Host.Outcome State Fault Refusal

/-- FB[i], none where it is unwritten (R10, R21). -/
def State.readFb (s : State) (i : Nat) : Option Byte := s.fb.read i

/-- MemWrite(i, 1, v) (R10). -/
def State.writeFb (s : State) (i : Nat) (v : Byte) : State := { s with fb := s.fb.write i v }

/-- emit, for records in order: they are appended to OUT (R31). -/
def State.emit (s : State) (rs : List Record) : State := { s with out := s.out ++ rs }

/-- RES <- v (R24). -/
def State.setRes (s : State) (v : Word32) : State := { s with res := v }

/-- phase <- IDLE, so BUSY reads 0 (R35). -/
def State.toIdle (s : State) : State := { s with phase := .idle }

/-- A command fault with code c, this block's only exception (R212): ERR, ECODE, the sticky FAULT and FCODE, and the
phase; nothing is saved, no control is transferred and there is no return from it (R220, R221). The next command runs as
if no fault had occurred (R214). -/
def commandFault (c : FaultCode) (s : State) : Result := .next (stickyFault c (markError c s)).toIdle

/-- The end of a one-step command that did not fault: ERR <- 0, ECODE <- 0, phase <- IDLE (R212, 40_bitfield.md). -/
def complete (s : State) : Result := .next (clearError s).toIdle

/-- Run `k` unless an operand check of the command has found a fault (R217). -/
def unlessFault (f : Option FaultCode) (s : State) (k : Result) : Result :=
  match f with
  | some c => commandFault c s
  | none => k

/-- Octet i is not inside the frame: i >= FLEN (R22). -/
def octetAbsent (s : State) (i : Nat) : Bool := s.flen.toNat ≤ i

/-- The target octet of T.30 bit b, handed to `k`: OUT_OF_FRAME when it is not inside the frame, Uninit when it is
unwritten (R113, R216, R217). -/
def withTarget (b : BitNum) (s : State) (k : Byte → Result) : Result :=
  if octetAbsent s (octetOf s.config.params b).toNat then commandFault .outOfFrame s
  else match s.readFb (octetOf s.config.params b).toNat with
    | none => .fault .uninit
    | some o => k o

end Sys2Proof.Machine
end

