-- ==== Sys2Proof/Machine/Bitfield.lean ====
section
/-! DEFINITION. The bitfield extractor commands (BFX, 40_bitfield.md). -/

namespace Sys2Proof.Machine

/-- RES of MAP: RES[7:0] = octetOf(b), RES[10:8] = bitOf(b) (R90). -/
def mapResult (p : Params) (b : BitNum) : Word32 := (bitOf b ++ octetOf p b).zeroExtend 32

/-- MAP (R112). It reads neither FB nor FLEN. -/
def execMap (b : BitNum) (s : State) : Result :=
  unlessFault (bitFault s.config.params b) s <| complete (s.setRes (mapResult s.config.params b))

/-- TESTBIT (R113). -/
def execTestbit (b : BitNum) (s : State) : Result :=
  unlessFault (bitFault s.config.params b) s <|
  withTarget b s fun o => complete (s.setRes ((bitValue o b).zeroExtend 32))

/-- SETBIT (R114). -/
def execSetbit (b : BitNum) (v : BitVec 1) (s : State) : Result :=
  unlessFault (bitFault s.config.params b) s <|
  withTarget b s fun o => complete (s.writeFb (octetOf s.config.params b).toNat (withBit o b v))

/-- GETFIELD (R115). -/
def execGetfield (sb eb : BitNum) (s : State) : Result :=
  unlessFault (rangeFault s.config.params sb eb) s <|
  withTarget sb s fun o => complete (s.setRes ((fieldValue o sb eb).zeroExtend 32))

end Sys2Proof.Machine
end

