-- ==== Sys2Proof/Machine/Render.lean ====
section
/-! DEFINITION. Tag lookup, field rendering and the render commands (TTL and FFR, 41_render.md). -/

namespace Sys2Proof.Machine

/-- The index of the first entry whose value is v, or none (R130). -/
def firstMatch : TagTable → Byte → Option Nat
  | [], _ => none
  | e :: es, v => if e.val = v then some 0 else (firstMatch es v).map (· + 1)

/-- tagLookup in a defined table: the first matching index, or 0xFF ("Invalid") (R130). -/
def tagLookup (t : TagTable) (v : Byte) : Byte :=
  match firstMatch t v with
  | some k => .ofNat 8 k
  | none => 0xFF

/-- renderRsv (R132): an anomaly record only when the bit is 1. -/
def renderRsv (p : Params) (b : BitNum) (d o : Byte) (cls : FrameClass) : List Record :=
  if bitValue o b = 1 then [mkRec .rsv d b b 1 0 (octetOf p b) 0 cls] else []

/-- renderBool (R133): always one record. -/
def renderBool (p : Params) (b : BitNum) (d : Byte) (lp : BitVec 4) (o : Byte) (cls : FrameClass) : List Record :=
  [mkRec .bool d b b ((bitValue o b).zeroExtend 8) 0 (octetOf p b) lp cls]

/-- renderCoded with the table t that TT[tt] holds (R134): always one record. -/
def renderCoded (p : Params) (s e : BitNum) (d : Byte) (tt : BitVec 4) (t : TagTable) (o : Byte) (cls : FrameClass) :
    List Record :=
  [mkRec .coded d s e (fieldValue o s e) (tagLookup t (fieldValue o s e)) (octetOf p s) tt cls]

/-- The render dispatcher (R135). In a checked layout a CODED descriptor's table is defined (R151, WF5), so the empty
table below stands for no case. -/
def renderField (p : Params) (L : Layout) (f : Descriptor) (o : Byte) (cls : FrameClass) : List Record :=
  match f.kind with
  | .rsv => renderRsv p f.start f.desc o cls
  | .bool => renderBool p f.start f.desc f.aux o cls
  | .coded => renderCoded p f.start f.stop f.desc f.aux ((tagTable L f.aux).getD []) o cls

/-- Every descriptor of an octet, in list order (R157, R161). -/
def renderFields (p : Params) (L : Layout) (fs : List Descriptor) (o : Byte) (cls : FrameClass) : List Record :=
  fs.flatMap fun f => renderField p L f o cls

/-- BAD_TABLE unless LP[lp] is defined (R138). -/
def pairFault (s : State) (lp : BitVec 4) : Option FaultCode :=
  if (labelPair s.config.layout.raw lp).isSome then none else some .badTable

/-- RSVCHK (R137). The record's class is 0 (R91). -/
def execRsvchk (b : BitNum) (d : Byte) (s : State) : Result :=
  unlessFault (bitFault s.config.params b) s <|
  withTarget b s fun o => complete (s.emit (renderRsv s.config.params b d o .disDtc))

/-- BOOLFLD (R138). -/
def execBoolfld (b : BitNum) (d : Byte) (lp : BitVec 4) (s : State) : Result :=
  unlessFault (bitFault s.config.params b) s <|
  unlessFault (pairFault s lp) s <|
  withTarget b s fun o => complete (s.emit (renderBool s.config.params b d lp o .disDtc))

/-- CODEDFLD (R139). -/
def execCodedfld (sb eb : BitNum) (d : Byte) (tt : BitVec 4) (s : State) : Result :=
  unlessFault (rangeFault s.config.params sb eb) s <|
  match tagTable s.config.layout.raw tt with
  | none => commandFault .badTable s
  | some t => withTarget sb s fun o => complete (s.emit (renderCoded s.config.params sb eb d tt t o .disDtc))

end Sys2Proof.Machine
end

