-- ==== Sys2Proof/Machine/Walk.lean ====
section
/-! DEFINITION. The frame decoder walker (FDW, 42_decode.md). -/

namespace Sys2Proof.Machine

/-- The class of a frame-type byte: DCS exactly when the masked byte is DCS_TYPE (R153, R168). -/
def classOfType (c : Config) (t : Byte) : FrameClass :=
  if t &&& c.typeMask = c.dcsType then .dcs else .disDtc

/-- frameClass() (R153): none where byte 2 is inside the frame and unwritten; with FLEN < 3 it is never read. -/
def frameClass (s : State) : Option FrameClass :=
  if s.flen.toNat < 3 then some .disDtc else (s.readFb 2).map (classOfType s.config)

/-- DECODE's decode step (R155): ERR, ECODE, TERM and CLS, OI <- 3, which is FIRST_OCTET (R6, log 5), and
phase <- WALK. -/
def execDecode (s : State) : Result :=
  match frameClass s with
  | none => .fault .uninit
  | some cls => .next { clearError s with
      term := .none, cls := cls, oi := .ofNat 5 s.config.params.firstOctet, phase := .walk }

/-- The SHORT record of an absent octet (R159). -/
def shortRecord (oct : Byte) (cls : FrameClass) : Record := mkRec .short 0 0 0 0 0 oct 0 cls

/-- The BEYOND record (R158), its OCTET OI_END. -/
def beyondRecord (p : Params) (cls : FrameClass) : Record := mkRec .beyond 0 0 0 0 0 (.ofNat 8 p.oiEnd) 0 cls

/-- The walk ends with outcome `t`: TERM <- t, phase <- IDLE (R157). -/
def endWalk (t : Term) (s : State) : Result := .next { s with term := t, phase := .idle }

/-- The walker tests octet i's extension indicator, bit 7, and it is clear (R154, R160). -/
def extensionClear (c : Config) (i : Nat) (o : Byte) : Bool := c.extFirst.index ≤ i && !o.getLsbD 7

/-- walkStep() (R157). -/
def walkStep (s : State) : Result :=
  if s.oi.toNat = s.config.params.oiEnd then endWalk .beyond (s.emit [beyondRecord s.config.params s.cls])
  else if octetAbsent s s.oi.toNat then endWalk .short (s.emit [shortRecord (s.oi.zeroExtend 8) s.cls])
  else match s.readFb s.oi.toNat with
    | none => .fault .uninit
    | some o =>
      let L := s.config.layout.raw
      let fs := layoutFields s.config.params L s.cls s.oi.toNat
      let t := s.emit (renderFields s.config.params L fs o s.cls)
      if extensionClear s.config s.oi.toNat o then endWalk .complete t
      else .next { t with oi := s.oi + 1 }

end Sys2Proof.Machine
end

