-- ==== Sys2Proof/Machine/Dispatch.lean ====
section
/-! DEFINITION. One arm per command: its decode step (R26). -/

namespace Sys2Proof.Machine

def exec (i : Instr) (s : State) : Host.Outcome State Fault Refusal :=
  match i with
  | .map b => Sys2Proof.Machine.execMap b s
  | .testbit b => Sys2Proof.Machine.execTestbit b s
  | .setbit b v => Sys2Proof.Machine.execSetbit b v s
  | .getfield sb eb => Sys2Proof.Machine.execGetfield sb eb s
  | .rsvchk b d => Sys2Proof.Machine.execRsvchk b d s
  | .boolfld b d lp => Sys2Proof.Machine.execBoolfld b d lp s
  | .codedfld sb eb d tt => Sys2Proof.Machine.execCodedfld sb eb d tt s
  | .decode => Sys2Proof.Machine.execDecode s

end Sys2Proof.Machine
end

