-- ==== Sys2Proof/Machine/HostBus.lean ====
section
/-! DEFINITION. The host interface (20_memory.md): the register map, the accesses that fault, held writes, and the host's
turn. -/

namespace Sys2Proof.Machine

/-- What a byte offset of the host register space names (R54). -/
inductive Target where
  | fb (i : Nat)
  | flen
  | cmd
  | res
  | status
  /-- A reserved offset (R59), or an offset inside a register that is not its own (R60). -/
  | reserved
  deriving DecidableEq, Repr

/-- The register map (R54); an FB offset at or above FB_SIZE is reserved (R59). -/
def target (c : Config) (off : BitVec 12) : Target :=
  if off.toNat < c.fbSize.bytes then .fb off.toNat
  else if off = 0x100 then .flen
  else if off = 0x104 then .cmd
  else if off = 0x108 then .res
  else if off = 0x10C then .status
  else .reserved

/-- FB takes 8-bit accesses anywhere and 32-bit accesses at multiples of 4 (R60). A 32-bit access whose last byte is at
or above FB_SIZE touches a reserved offset (R59; DEDUCED, log 10). -/
def fbShapeOk (c : Config) (width i : Nat) : Bool :=
  width = 8 || width = 32 && i % 4 = 0 && i + 3 < c.fbSize.bytes

/-- BUS unless `ok`. -/
def busUnless (ok : Bool) : Option FaultCode := if ok then none else some .bus

/-- The host-access fault of a read, if any (R59, R60, R215). -/
def readFault (c : Config) (r : HostRead) : Option FaultCode :=
  match target c r.off with
  | .fb i => busUnless (fbShapeOk c r.width i)
  | .flen | .cmd | .res | .status => busUnless (r.width = 32)
  | .reserved => some .bus

/-- The host-access fault of a write, if any: BUS first, BAD_LENGTH only for a legal 32-bit write to FLEN (R55, R58 to
R60, R215). -/
def writeFault (c : Config) (w : HostWrite) : Option FaultCode :=
  match target c w.off with
  | .fb i => busUnless (fbShapeOk c w.width i)
  | .flen =>
    if w.width = 32 then (if w.value.toNat ≤ c.fbSize.bytes then none else some .badLength) else some .bus
  | .cmd => busUnless (w.width = 32)
  | .res | .status | .reserved => some .bus

/-- A host-access fault: FAULT and FCODE only (R215). -/
def hostFault (c : FaultCode) (s : State) : State := stickyFault c s

/-- The value a host read returns is appended to what the host has read (log 8). -/
def State.answer (s : State) (v : Word32) : State := { s with hostReads := s.hostReads ++ [v] }

/-- The little-endian word at FB[i..i+3]: FB[i+3] ++ FB[i+2] ++ FB[i+1] ++ FB[i]; none where any byte is unwritten
(R53, R216). -/
def readWord (s : State) (i : Nat) : Option Word32 :=
  match s.readFb i, s.readFb (i + 1), s.readFb (i + 2), s.readFb (i + 3) with
  | some b0, some b1, some b2, some b3 => some (b3 ++ b2 ++ b1 ++ b0)
  | _, _, _, _ => none

/-- MemWrite(i+j, 1, v[8j+7:8j]) for j = 0 to 3, in one step (R53). -/
def writeWord (s : State) (i : Nat) (v : Word32) : State :=
  (((s.writeFb i (v.extractLsb' 0 8)).writeFb (i + 1) (v.extractLsb' 8 8)).writeFb (i + 2) (v.extractLsb' 16 8)).writeFb
    (i + 3) (v.extractLsb' 24 8)

/-- The value of a read that does not fault; none is Uninit (R51, R53, R55 to R57). A byte read is zero-extended. -/
def readValue (s : State) (r : HostRead) : Option Word32 :=
  match target s.config r.off with
  | .fb i => if r.width = 8 then (s.readFb i).map (·.zeroExtend 32) else readWord s i
  | .flen => some (s.flen.zeroExtend 32)
  | .cmd => some 0
  | .res => some s.res
  | .status => some (statusWord s)
  | .reserved => some 0

/-- The effect of a write that does not fault (R51, R53, R55, R56). -/
def applyWrite (w : HostWrite) (s : State) : State :=
  match target s.config w.off with
  | .fb i => if w.width = 8 then s.writeFb i (w.value.extractLsb' 0 8) else writeWord s i w.value
  | .flen => { s with flen := w.value.extractLsb' 0 9 }
  | .cmd => { s with cmdq := w.value, phase := .pending }
  | .res | .status | .reserved => s

/-- A host read in its own step. A faulting read returns 0 (R215). -/
def hostRead (r : HostRead) (s : State) : Result :=
  match readFault s.config r with
  | some c => .next ((hostFault c s).answer 0)
  | none => match readValue s r with
    | none => .fault .uninit
    | some v => .next (s.answer v)

/-- A host write in its own step: a faulting write changes nothing else and is never held (R215); a legal one is held
while BUSY = 1 (R62), and otherwise takes effect. -/
def hostWrite (w : HostWrite) (s : State) : Result :=
  match writeFault s.config w with
  | some c => .next (hostFault c s)
  | none => if s.busy then .next { s with held := some w } else .next (applyWrite w s)

/-- One host operation. `wait` reads STATUS, and is done once BUSY reads 0 (R94). -/
def hostOp (op : HostOp) (s : State) : Result :=
  match op with
  | .read r => hostRead r s
  | .write w => hostWrite w s
  | .wait =>
    let t := s.answer (statusWord s)
    .next (if s.busy then { t with hostQueue := .wait :: t.hostQueue } else t)

/-- The host's turn (R26, R62): with a write held it has no step until the engine is IDLE, and then that write takes
effect; otherwise it issues its next operation, if it has one. -/
def hostTurn (s : State) : Result :=
  match s.held with
  | some w => if s.busy then .next s else hostWrite w { s with held := none }
  | none => match s.hostQueue with
    | [] => .next s
    | op :: ops => hostOp op { s with hostQueue := ops }

/-- `wb i, v` (R94). -/
def HostOp.wb (i : BitVec 12) (v : Word32) : HostOp := .write ⟨8, i, v⟩
/-- `ww off, v` (R94). -/
def HostOp.ww (off : BitVec 12) (v : Word32) : HostOp := .write ⟨32, off, v⟩
/-- `rb i` (R94). -/
def HostOp.rb (i : BitVec 12) : HostOp := .read ⟨8, i⟩
/-- `rw off` (R94). -/
def HostOp.rw (off : BitVec 12) : HostOp := .read ⟨32, off⟩
/-- `flen n` is `ww 0x100, n` (R94). -/
def HostOp.flen (n : Word32) : HostOp := .ww 0x100 n
/-- `cmd <insn>` is `ww 0x104, <encoding of insn>` (R94). -/
def HostOp.cmd (w : Word32) : HostOp := .ww 0x104 w

end Sys2Proof.Machine
end

