-- ==== Sys2Proof/Machine/Engine.lean ====
section
/-! DEFINITION. The engine's step (R26), the RESET input (R240), and whose turn it is (R251). -/

namespace Sys2Proof.Machine

/-- The engine's step (R26): in PENDING it decodes CMDQ and runs the command, or raises ILLEGAL_CMD; in WALK it processes
one octet index; in IDLE it takes none. -/
def engineStep (s : State) : Result :=
  match s.phase with
  | .idle => .next s
  | .pending => match decodeCmd s.cmdq with
    | .ok i => exec i s
    | .error _ => commandFault .illegalCmd s
  | .walk => walkStep s

/-- The RESET input (R240): every piece of state takes its reset value and a held write is discarded. The records
emitted stay in OUT, the configuration stays (R32), and so does the world outside the block. -/
def resetAction (s : State) : State :=
  { State.resetUnder s.config with
    out := s.out, hostQueue := s.hostQueue, hostReads := s.hostReads, schedule := s.schedule }

/-- One turn (R251). The schedule says whose it is; when it is empty the engine moves while it is busy, and the host
moves otherwise (log 8). A turn whose agent has no step to take passes. -/
def takeTurn (s : State) : Result :=
  match s.schedule with
  | .host :: ts => hostTurn { s with schedule := ts }
  | .engine :: ts => engineStep { s with schedule := ts }
  | .reset :: ts => .next (resetAction { s with schedule := ts })
  | [] => if s.busy then engineStep s else hostTurn s

/-- The state in which the command word with low bits `w` is latched and the engine's decode step comes next (R23, R56,
R80; log 9). -/
def latchCommand (nbits w : Nat) (s : State) : State :=
  { s with cmdq := commandWord nbits w, phase := .pending, schedule := [] }

end Sys2Proof.Machine
end

