-- ==== Sys2Proof/Machine/Step.lean ====
section
/-! DEFINITION. One step of the machine: one turn of the host, the engine or RESET. -/

namespace Sys2Proof.Machine

/-- One step (R251). -/
def step (s : State) : Host.Outcome State Fault Refusal := takeTurn s

/-- The state whose next step decodes and runs the command word with low bits `w` (log 9). -/
def State.withFetchWord (s : State) (nbits w : Nat) : State := latchCommand nbits w s

end Sys2Proof.Machine
end

