-- ==== Sys2Proof/Machine/ClosedForm.lean ====
section
/-! DEFINITION. The closed form of a DECODE (R163): the records, the final TERM and the final OI as one function of the
frame, written apart from the walker's steps. -/

namespace Sys2Proof.Machine

/-- What a DECODE leaves: the records appended to OUT, the final TERM and the final OI (R163). -/
structure Decoded where
  records : List Record
  term : Term
  oi : Nat
  deriving DecidableEq, Repr

/-- Records emitted before the rest of a decode. -/
def Decoded.after (rs : List Record) (d : Decoded) : Decoded := { d with records := rs ++ d.records }

/-- The loop of decodeFrame over `n` capability octets from index `i`, then BEYOND (R163); none where a byte it reads is
unwritten (R216). -/
def decodeOctets (c : Config) (fb : Memory) (flen : Nat) (cls : FrameClass) : Nat → Nat → Option Decoded
  | _, 0 => some ⟨[beyondRecord c.params cls], .beyond, c.params.oiEnd⟩
  | i, n + 1 =>
    if flen ≤ i then some ⟨[shortRecord (.ofNat 8 i) cls], .short, i⟩
    else (fb.read i).bind fun o =>
      let rs := renderFields c.params c.layout.raw (layoutFields c.params c.layout.raw cls i) o cls
      if extensionClear c i o then some ⟨rs, .complete, i⟩
      else (decodeOctets c fb flen cls (i + 1) n).map (Decoded.after rs)

/-- decodeFrame for a frame whose class is known: octets FIRST_OCTET to LAST_OCTET (R163). -/
def decodeFrame (c : Config) (fb : Memory) (flen : Nat) (cls : FrameClass) : Option Decoded :=
  decodeOctets c fb flen cls c.params.firstOctet (octetCount c.params)

end Sys2Proof.Machine
end

