-- ==== Sys2Proof/Safety.lean ====
section
/-! DEFINITION. The invariant of the machine, and the notions that the statements are written in. -/

namespace Sys2Proof.Machine

/-- The walker has passed octet j: it is inside the frame, it is written, and its extension indicator is set or not
looked at (R160, R162). -/
def octetPassed (s : State) (j : Nat) : Bool :=
  match s.readFb j with
  | some o => !octetAbsent s j && !extensionClear s.config j o
  | none => false

/-- What every state of a run satisfies. -/
structure State.Inv (s : State) : Prop where
  /-- The frame buffer is in its canonical form. -/
  memoryCanonical : s.fb.wf = true
  /-- No byte lies at or above FB_SIZE (R20). -/
  memoryInBuffer : s.fb.below s.config.fbSize.bytes = true
  /-- FLEN is 0 to FB_SIZE (R22). -/
  lengthLegal : s.flen.toNat ≤ s.config.fbSize.bytes
  /-- "OI takes only the values 0 (reset) and 3 to 19" (R25): FIRST_OCTET to OI_END. -/
  indexLegal : s.oi.toNat = 0 ∨ (s.config.params.firstOctet ≤ s.oi.toNat ∧ s.oi.toNat ≤ s.config.params.oiEnd)
  /-- OI is 0 only before any DECODE (R27). -/
  indexZero : s.oi.toNat = 0 → s.term = .none ∧ s.cls = .disDtc ∧ s.phase ≠ .walk
  /-- During a walk TERM is NONE (R29), and DECODE has cleared ERR (R155). -/
  walking : s.phase = .walk → s.term = .none ∧ s.err = false
  /-- A walk at octet i has passed every octet below i (R162). -/
  walked : s.phase = .walk → ∀ j, j < s.oi.toNat → s.config.params.firstOctet ≤ j → octetPassed s j = true
  /-- FCODE is 0 exactly while FAULT = 0 (R25). -/
  faultCode : s.fault = false ↔ s.fcode = .none
  /-- ECODE is 0 exactly when the most recent command did not fault (R25). -/
  errorCode : s.err = false ↔ s.ecode = .none
  /-- A command fault is a fault (R213). -/
  errorIsFault : s.err = true → s.fault = true
  /-- Host-access faults do not reach ECODE (R30). -/
  errorIsCommands : s.ecode ≠ .badLength ∧ s.ecode ≠ .bus
  /-- Only a legal write is held (R62, R215). -/
  heldLegal : ∀ w, s.held = some w → writeFault s.config w = none
  /-- Every record has a KIND of R92 and zero bits 7:1 (R91). -/
  recordsOk : s.out.all recordOk = true

/-- The state after a command fault with code c (R212). -/
def faulted (c : FaultCode) (s : State) : State :=
  { s with
    err := true, ecode := c, fault := true, fcode := if s.fault then s.fcode else c, phase := .idle }

/-- The state after a host-access fault with code c (R215). -/
def hostFaulted (c : FaultCode) (s : State) : State :=
  { s with fault := true, fcode := if s.fault then s.fcode else c }

/-- The frame index that T.30 bit b names, as arithmetic (R110, its 3 FIRST_OCTET). -/
def octetIndex (p : Params) (b : BitNum) : Nat := (b.toNat - 1) / 8 + p.firstOctet

/-- The bit position that T.30 bit b names, as arithmetic (R110). -/
def bitPosition (b : BitNum) : Nat := (b.toNat - 1) % 8

/-- A legal T.30 bit number (R6, R8). -/
abbrev legalBit (p : Params) (b : BitNum) : Prop := p.bitMin ≤ b.toNat ∧ b.toNat ≤ p.bitMax

/-- A legal range: legal ends, in order, in one octet (R111, R115). -/
abbrev legalRange (p : Params) (sb eb : BitNum) : Prop :=
  legalBit p sb ∧ legalBit p eb ∧ sb.toNat ≤ eb.toNat ∧ octetIndex p sb = octetIndex p eb

/-- Octet i is inside the frame and holds o. -/
abbrev octetHolds (s : State) (i : Nat) (o : Byte) : Prop := i < s.flen.toNat ∧ s.readFb i = some o

/-- The bit-number operands of a command (R211). -/
def bitOperands : Instr → List BitNum
  | .map b | .testbit b | .setbit b _ | .rsvchk b _ | .boolfld b _ _ => [b]
  | .getfield sb eb | .codedfld sb eb _ _ => [sb, eb]
  | .decode => []

/-- The range of a range command (R211). -/
def rangeOperands : Instr → Option (BitNum × BitNum)
  | .getfield sb eb | .codedfld sb eb _ _ => some (sb, eb)
  | _ => none

/-- The octet a command reads at its first bit-number operand; MAP and DECODE have none (R211, R216). -/
def targetOctet (p : Params) : Instr → Option Nat
  | .testbit b | .setbit b _ | .rsvchk b _ | .boolfld b _ _ => some (octetIndex p b)
  | .getfield sb _ | .codedfld sb _ _ _ => some (octetIndex p sb)
  | _ => none

/-- The cause of a command fault, as the table of R211 gives it, without regard to priority. ILLEGAL_CMD is decided on the
word, not on a decoded command. -/
def faultApplies (i : Instr) (s : State) : FaultCode → Bool
  | .bitRange => (bitOperands i).any fun b => b.toNat < s.config.params.bitMin || s.config.params.bitMax < b.toNat
  | .fieldOrder => (rangeOperands i).any fun p => p.2.toNat < p.1.toNat
  | .fieldSpan => (rangeOperands i).any fun p => octetIndex s.config.params p.1 ≠ octetIndex s.config.params p.2
  | .badTable => match i with
    | .boolfld _ _ lp => (labelPair s.config.layout.raw lp).isNone
    | .codedfld _ _ _ tt => (tagTable s.config.layout.raw tt).isNone
    | _ => false
  | .outOfFrame => (targetOctet s.config.params i).any fun k => s.flen.toNat ≤ k
  | _ => false

/-- The place of a code in the priority order (R217). -/
def faultRank : FaultCode → Nat
  | .illegalCmd => 1
  | .bitRange => 2
  | .fieldOrder => 3
  | .fieldSpan => 4
  | .badTable => 5
  | .outOfFrame => 6
  | _ => 0

/-- c is the fault a command reports: it applies, and no fault of higher priority does (R217). -/
def reports (i : Instr) (s : State) (c : FaultCode) : Prop :=
  faultApplies i s c = true ∧ ∀ c', faultRank c' < faultRank c → faultApplies i s c' = false

/-- The frame byte that a command reads in its decode step, when no fault applies (R216). -/
def byteNeeded (i : Instr) (s : State) : Option Nat :=
  match i with
  | .decode => if s.flen.toNat < 3 then none else some 2
  | _ => targetOctet s.config.params i

/-- An outcome with FAULT and FCODE left out of sight (R214). -/
def ignoringFault : Result → Result
  | .next t => .next { t with fault := false, fcode := .none }
  | .fault r => .fault r
  | .refused r => .refused r

/-- An outcome with the frame buffer left out of sight. -/
def ignoringFrame : Result → Result
  | .next t => .next { t with fb := [] }
  | .fault r => .fault r
  | .refused r => .refused r

/-- n steps of the engine alone; an idle engine takes none (R26). -/
def engineRun : Nat → State → Result
  | 0, s => .next s
  | n + 1, s => match engineStep s with
    | .next t => engineRun n t
    | .fault r => .fault r
    | .refused r => .refused r

/-- The most engine steps a DECODE takes: its decode step and a walk step at each index from FIRST_OCTET to OI_END (R164);
18 with the defaults of R6. -/
def decodeSteps (p : Params) : Nat := 1 + (p.oiEnd - p.firstOctet + 1)

/-- Octet j is written and its bit 7 is set: ext(j) = 1 (R169). -/
def extensionSet (fb : Memory) (j : Nat) : Bool :=
  match fb.read j with
  | some o => o.getLsbD 7
  | none => false

end Sys2Proof.Machine
end

