-- ==== Sys2Proof/Certificates/Slice0/Obligations.lean ====
section
/-! DEFINITION. The statements about T30FD, one `def Obligations.<Name> : Prop` each. -/

open Sys2Proof Sys2Proof.Machine

/-! ### Commands: encoding and decoding -/

/-- In PENDING, the engine's step is the meaning of the command that CMDQ decodes to (R26), with the schedule advanced
where the turn was scheduled (the model's own, log 8). -/
def Obligations.PendingStepRunsTheDecodedCommand : Prop :=
  ∀ (i : Instr) (s : State), s.phase = .pending → decodeCmd s.cmdq = .ok i →
    (s.schedule = [] → step s = exec i s) ∧
    (∀ ts, s.schedule = .engine :: ts → step s = exec i { s with schedule := ts })

/-- One step is one turn: the engine's step, the host's turn or RESET as the schedule says, and with no turn scheduled the
engine's step while it is busy and the host's turn otherwise (the model's own scheduling of R251, log 8). -/
def Obligations.StepTakesTheScheduledTurn : Prop :=
  ∀ (s : State) (ts : List Turn),
    (s.schedule = .engine :: ts → step s = engineStep { s with schedule := ts }) ∧
    (s.schedule = .host :: ts → step s = hostTurn { s with schedule := ts }) ∧
    (s.schedule = .reset :: ts → step s = .next (resetAction { s with schedule := ts })) ∧
    (s.schedule = [] → s.busy = true → step s = engineStep s) ∧
    (s.schedule = [] → s.busy = false → step s = hostTurn s)

/-- A command's word, placed to run next, is decoded and run as that command (log 9). -/
def Obligations.PlacedCommandRunsNext : Prop :=
  ∀ (i : Instr) (s : State),
    decodeTableWord 32 (encode i).toNat = some i ∧
    step (s.withFetchWord 32 (encode i).toNat) = exec i (s.withFetchWord 32 (encode i).toNat)

/-- Decoding a command's word gives the command back, for every command and every operand (R83, R87). -/
def Obligations.EncodedCommandDecodesToItself : Prop :=
  ∀ i : Instr, decodeCmd (encode i) = .ok i

/-- A word that decodes is the word of the command it decodes to: no bit is dropped and no two words mean one command
(R83, R84). -/
def Obligations.DecodedWordIsTheCommandsWord : Prop :=
  ∀ (w : Word32) (i : Instr), decodeCmd w = .ok i → encode i = w

/-- Every word selects exactly one row of the opcode map or is illegal, and an illegal word's decode step raises
ILLEGAL_CMD and does nothing else (R84, R85). -/
def Obligations.IllegalWordsRaiseIllegalCmd : Prop :=
  (∀ w : Word32,
    ((opcodeMap.filter (·.selects w)).length = 1 ∧ ∃ i, decodeCmd w = .ok i) ∨
    ((opcodeMap.filter (·.selects w)).length = 0 ∧ ∃ e, decodeCmd w = .error e)) ∧
  (∀ s : State, s.phase = .pending →
    (opField s.cmdq = 0x0 ∨ 9 ≤ (opField s.cmdq).toNat ∨
      (∃ r ∈ opcodeMap, opField r.matchBits = opField s.cmdq ∧ s.cmdq &&& r.maskBits &&& 0x0FFFFFFF ≠ 0)) →
    engineStep s = .next (faulted .illegalCmd s))

/-- A word of each opcode, written out from the opcode map, decodes to its command (R83). -/
def Obligations.SampleWordsDecode : Prop :=
  decodeCmd 0x10C00000 = .ok (.map 12) ∧ decodeCmd 0x20B00000 = .ok (.testbit 11) ∧
  decodeCmd 0x30800001 = .ok (.setbit 8 1) ∧ decodeCmd 0x40B0E000 = .ok (.getfield 11 14) ∧
  decodeCmd 0x50200020 = .ok (.rsvchk 2 2) ∧ decodeCmd 0x60100011 = .ok (.boolfld 1 1 1) ∧
  decodeCmd 0x70305041 = .ok (.codedfld 3 5 4 1) ∧ decodeCmd 0x80000000 = .ok .decode

/-- The word of every command is OP<<28 | A<<20 | B<<12 | D<<4 | T, as a sum, with V in bit 0 (R81, R88). -/
def Obligations.CommandWordIsTheSumOfItsFields : Prop :=
  ∀ (b sb eb : BitNum) (v : BitVec 1) (d : Byte) (lp tt : BitVec 4),
    (encode (.map b)).toNat = 1 * 2 ^ 28 + b.toNat * 2 ^ 20 ∧
    (encode (.testbit b)).toNat = 2 * 2 ^ 28 + b.toNat * 2 ^ 20 ∧
    (encode (.setbit b v)).toNat = 3 * 2 ^ 28 + b.toNat * 2 ^ 20 + v.toNat ∧
    (encode (.getfield sb eb)).toNat = 4 * 2 ^ 28 + sb.toNat * 2 ^ 20 + eb.toNat * 2 ^ 12 ∧
    (encode (.rsvchk b d)).toNat = 5 * 2 ^ 28 + b.toNat * 2 ^ 20 + d.toNat * 2 ^ 4 ∧
    (encode (.boolfld b d lp)).toNat = 6 * 2 ^ 28 + b.toNat * 2 ^ 20 + d.toNat * 2 ^ 4 + lp.toNat ∧
    (encode (.codedfld sb eb d tt)).toNat =
      7 * 2 ^ 28 + sb.toNat * 2 ^ 20 + eb.toNat * 2 ^ 12 + d.toNat * 2 ^ 4 + tt.toNat ∧
    (encode .decode).toNat = 8 * 2 ^ 28

/-- The pseudo-instructions expand as R89 says, `getoctet` for whatever the capability octets are (R6) and, with the
default parameters, in R89's own numbers; and `getbit b` leaves the RES of `testbit b` when neither faults. -/
def Obligations.PseudoInstructionsExpand : Prop :=
  (∀ (p : Params) (b : Nat), (Source.clrbit b).assemble p = (Source.setbit b 0).assemble p) ∧
  (∀ (p : Params) (b : Nat), (Source.getbit b).assemble p = (Source.getfield b b).assemble p) ∧
  (∀ (p : Params) (b d : Nat), (Source.boolfldDefault b d).assemble p = (Source.boolfld b d 0).assemble p) ∧
  (∀ (p : Params) (i : Nat), p.firstOctet ≤ i → i ≤ p.lastOctet →
    (Source.getoctet i).assemble p =
      (Source.getfield (8 * (i - p.firstOctet) + 1) (8 * (i - p.firstOctet) + 8)).assemble p ∧
    ((Source.getoctet i).assemble p).isSome = true) ∧
  (∀ (p : Params) (i : Nat), i < p.firstOctet ∨ p.lastOctet < i → (Source.getoctet i).assemble p = none) ∧
  (∀ i : Nat, 3 ≤ i → i ≤ 18 →
    (Source.getoctet i).assemble {} = (Source.getfield (8 * (i - 3) + 1) (8 * (i - 3) + 8)).assemble {}) ∧
  (∀ (b : BitNum) (s t u : State), exec (.getfield b b) s = .next t → exec (.testbit b) s = .next u →
    t.err = false → u.err = false → t.res = u.res)

/-! ### The bit mapping -/

/-- The bit-number mapping, as arithmetic, for all values of R6's parameters and, with the defaults, in R110's own
numbers. -/
def Obligations.BitNumbersMapToOctetAndBit : Prop :=
  (∀ (p : Params) (b : BitNum), legalBit p b →
    (octetOf p b).toNat = (b.toNat - 1) / 8 + p.firstOctet ∧ (bitOf b).toNat = (b.toNat - 1) % 8 ∧
    p.firstOctet ≤ (octetOf p b).toNat ∧ (octetOf p b).toNat ≤ p.lastOctet ∧ (bitOf b).toNat ≤ 7) ∧
  (∀ b : BitNum, 1 ≤ b.toNat → b.toNat ≤ 128 →
    (octetOf {} b).toNat = (b.toNat - 1) / 8 + 3 ∧ 3 ≤ (octetOf {} b).toNat ∧ (octetOf {} b).toNat ≤ 18)

/-- The mapping is injective on the legal bit numbers, whatever R6's parameters are, and has its inverse: bit k of octet o
is T.30 bit 8(o-FIRST_OCTET)+k+1. With the defaults it is onto {3..18} x {0..7}, and bit numbers 8k-7 to 8k are exactly
the bits of octet k+2 (R117). -/
def Obligations.BitMappingIsABijection : Prop :=
  (∀ (p : Params) (b b' : BitNum), legalBit p b → legalBit p b' → octetOf p b = octetOf p b' → bitOf b = bitOf b' →
    b = b') ∧
  (∀ (p : Params) (b : BitNum) (o k : Nat), legalBit p b → p.firstOctet ≤ o → k ≤ 7 →
    b.toNat = 8 * (o - p.firstOctet) + k + 1 → (octetOf p b).toNat = o ∧ (bitOf b).toNat = k) ∧
  (∀ o k : Nat, 3 ≤ o → o ≤ 18 → k ≤ 7 →
    ∃ b : BitNum, 1 ≤ b.toNat ∧ b.toNat ≤ 128 ∧ b.toNat = 8 * (o - 3) + k + 1 ∧ (octetOf {} b).toNat = o ∧
      (bitOf b).toNat = k) ∧
  (∀ (b : BitNum) (k : Nat), 1 ≤ b.toNat → b.toNat ≤ 128 → 1 ≤ k → k ≤ 16 →
    ((octetOf {} b).toNat = k + 2 ↔ 8 * k - 7 ≤ b.toNat ∧ b.toNat ≤ 8 * k))

/-- The field value of a range in one octet: (o >> bitOf(s)) & ((1 << w) - 1) with w = e - s + 1 in 1..8, whose bit j is
T.30 bit s + j (R111). -/
def Obligations.FieldValueIsTheRangesBits : Prop :=
  ∀ (p : Params) (o : Byte) (sb eb : BitNum), legalRange p sb eb →
    1 ≤ eb.toNat - sb.toNat + 1 ∧ eb.toNat - sb.toNat + 1 ≤ 8 ∧
    (fieldValue o sb eb).toNat = o.toNat / 2 ^ bitPosition sb % 2 ^ (eb.toNat - sb.toNat + 1) ∧
    (∀ j, j < eb.toNat - sb.toNat + 1 →
      (fieldValue o sb eb).getLsbD j = o.getLsbD (bitPosition (.ofNat 8 (sb.toNat + j)))) ∧
    (∀ j, eb.toNat - sb.toNat + 1 ≤ j → (fieldValue o sb eb).getLsbD j = false)

/-! ### The bitfield commands: results, completion and frames -/

/-- MAP on a legal bit number completes: RES[7:0] is the octet, RES[10:8] the bit, and nothing but RES, ERR, ECODE and
the phase changes, whatever FB and FLEN hold. -/
def Obligations.MapCompletes : Prop :=
  ∀ (b : BitNum) (s : State), legalBit s.config.params b →
    exec (.map b) s = .next { s with
      res := .ofNat 32 (octetIndex s.config.params b + 256 * bitPosition b)
      err := false, ecode := .none, phase := .idle }

/-- TESTBIT on a written octet of the frame completes: RES is the bit, and nothing but RES, ERR, ECODE and the phase
changes. -/
def Obligations.TestbitCompletes : Prop :=
  ∀ (b : BitNum) (s : State) (o : Byte), legalBit s.config.params b →
    octetHolds s (octetIndex s.config.params b) o →
    exec (.testbit b) s = .next { s with
      res := if o.getLsbD (bitPosition b) then 1 else 0, err := false, ecode := .none, phase := .idle }

/-- SETBIT on a written octet of the frame completes: bit bitOf(b) of that octet becomes v, its other bits and every
other byte read as before, and nothing else but ERR, ECODE and the phase changes. The address stored to is octetOf(b),
the meaning's own. -/
def Obligations.SetbitCompletes : Prop :=
  ∀ (b : BitNum) (v : BitVec 1) (s : State) (o : Byte), legalBit s.config.params b →
    octetHolds s (octetOf s.config.params b).toNat o →
    ∃ (t : State) (o' : Byte), exec (.setbit b v) s = .next t ∧
      t.readFb (octetOf s.config.params b).toNat = some o' ∧
      (∀ k, k < 8 → o'.getLsbD k = if k = bitPosition b then decide (v = 1) else o.getLsbD k) ∧
      (∀ a, a ≠ (octetOf s.config.params b).toNat → t.readFb a = s.readFb a) ∧
      { t with fb := s.fb } = { s with err := false, ecode := .none, phase := .idle }

/-- GETFIELD on a legal range in a written octet of the frame completes: RES is the field's value, and nothing but RES,
ERR, ECODE and the phase changes. -/
def Obligations.GetfieldCompletes : Prop :=
  ∀ (sb eb : BitNum) (s : State) (o : Byte), legalRange s.config.params sb eb →
    octetHolds s (octetIndex s.config.params sb) o →
    exec (.getfield sb eb) s = .next { s with
      res := .ofNat 32 (o.toNat / 2 ^ bitPosition sb % 2 ^ (eb.toNat - sb.toNat + 1))
      err := false, ecode := .none, phase := .idle }

/-- The round trip: `setbit b, v` then `testbit b` leaves RES = v, and every other bit of FB is unchanged (R116). -/
def Obligations.SetThenTestGivesTheValue : Prop :=
  ∀ (b : BitNum) (v : BitVec 1) (s : State) (o : Byte), legalBit s.config.params b →
    octetHolds s (octetOf s.config.params b).toNat o →
    ∃ t u : State, exec (.setbit b v) s = .next t ∧ exec (.testbit b) t = .next u ∧ u.res = v.zeroExtend 32 ∧
      (∀ a, a ≠ (octetOf s.config.params b).toNat → u.readFb a = s.readFb a) ∧
      ∃ o', u.readFb (octetOf s.config.params b).toNat = some o' ∧
        ∀ k, k < 8 → k ≠ (bitOf b).toNat → o'.getLsbD k = o.getLsbD k

/-- What no command's decode step writes: FLEN, CMDQ, the configuration, the held write and the world outside; RES
belongs to MAP, TESTBIT and GETFIELD, OUT to the render commands, TERM, CLS and OI to DECODE, and only SETBIT stores, to
the octet of its bit. -/
def Obligations.CommandsWriteOnlyTheirState : Prop :=
  ∀ (i : Instr) (s t : State), exec i s = .next t →
    (t.flen = s.flen ∧ t.cmdq = s.cmdq ∧ t.config = s.config ∧ t.held = s.held ∧ t.hostQueue = s.hostQueue ∧
      t.hostReads = s.hostReads ∧ t.schedule = s.schedule) ∧
    ((∀ b, i ≠ .map b ∧ i ≠ .testbit b) → (∀ sb eb, i ≠ .getfield sb eb) → t.res = s.res) ∧
    ((∀ b d, i ≠ .rsvchk b d) → (∀ b d lp, i ≠ .boolfld b d lp) → (∀ sb eb d tt, i ≠ .codedfld sb eb d tt) →
      t.out = s.out) ∧
    (i ≠ .decode → t.term = s.term ∧ t.cls = s.cls ∧ t.oi = s.oi ∧ t.phase = .idle) ∧
    (∀ a, (∀ b v, i = .setbit b v → a ≠ (octetOf s.config.params b).toNat) → t.readFb a = s.readFb a)

/-! ### Tag lookup, records and the render commands -/

/-- The tag lookup: the first matching entry's index, or 0xFF where no entry matches, and a match never collides with
0xFF (R130). -/
def Obligations.TagLookupFindsTheFirstMatch : Prop :=
  ∀ (t : TagTable) (v : Byte), t.length ≤ 255 →
    (∀ k, (hk : k < t.length) → t[k].val = v → (∀ j, (hj : j < k) → (t[j]'(by omega)).val ≠ v) →
      (tagLookup t v).toNat = k ∧ k ≤ 254) ∧
    ((∀ e ∈ t, e.val ≠ v) → tagLookup t v = 0xFF)

/-- The record word is the concatenation of its fields, as a sum, and each field reads back (R91, R95). -/
def Obligations.RecordWordHoldsItsFields : Prop :=
  ∀ (k : RecordKind) (d sb eb v tag oct : Byte) (aux : BitVec 4) (cls : FrameClass),
    (mkRec k d sb eb v tag oct aux cls).toNat =
      k.code.toNat * 2 ^ 60 + d.toNat * 2 ^ 52 + sb.toNat * 2 ^ 44 + eb.toNat * 2 ^ 36 + v.toNat * 2 ^ 28
        + tag.toNat * 2 ^ 20 + oct.toNat * 2 ^ 12 + aux.toNat * 2 ^ 8 + cls.bit.toNat ∧
    kindOf (mkRec k d sb eb v tag oct aux cls) = some k ∧ recDesc (mkRec k d sb eb v tag oct aux cls) = d ∧
    recStart (mkRec k d sb eb v tag oct aux cls) = sb ∧ recEnd (mkRec k d sb eb v tag oct aux cls) = eb ∧
    recValue (mkRec k d sb eb v tag oct aux cls) = v ∧ recTag (mkRec k d sb eb v tag oct aux cls) = tag ∧
    recOctet (mkRec k d sb eb v tag oct aux cls) = oct ∧ recAux (mkRec k d sb eb v tag oct aux cls) = aux ∧
    recZero (mkRec k d sb eb v tag oct aux cls) = 0 ∧ recCls (mkRec k d sb eb v tag oct aux cls) = cls.bit

/-- The three field kinds: RSV makes a record only when its bit is 1, BOOL and CODED always make exactly one (R132 to
R135). -/
def Obligations.FieldsRenderByKind : Prop :=
  ∀ (p : Params) (L : Layout) (f : Descriptor) (o : Byte) (cls : FrameClass),
    (f.kind = .rsv → legalBit p f.start →
      renderField p L f o cls =
        if o.getLsbD (bitPosition f.start)
        then [mkRec .rsv f.desc f.start f.start 1 0 (.ofNat 8 (octetIndex p f.start)) 0 cls] else []) ∧
    (f.kind = .bool → legalBit p f.start →
      renderField p L f o cls =
        [mkRec .bool f.desc f.start f.start (if o.getLsbD (bitPosition f.start) then 1 else 0) 0
          (.ofNat 8 (octetIndex p f.start)) f.aux cls]) ∧
    (∀ t, f.kind = .coded → legalRange p f.start f.stop → tagTable L f.aux = some t →
      renderField p L f o cls =
        [mkRec .coded f.desc f.start f.stop (fieldValue o f.start f.stop)
          (tagLookup t (fieldValue o f.start f.stop)) (.ofNat 8 (octetIndex p f.start)) f.aux cls])

/-- RSVCHK on a written octet of the frame completes: it emits one RSV record when the bit is 1 and none when it is 0,
and nothing but OUT, ERR, ECODE and the phase changes. -/
def Obligations.RsvchkCompletes : Prop :=
  ∀ (b : BitNum) (d : Byte) (s : State) (o : Byte), legalBit s.config.params b →
    octetHolds s (octetIndex s.config.params b) o →
    exec (.rsvchk b d) s = .next { s with
      out := s.out ++
        (if o.getLsbD (bitPosition b)
          then [mkRec .rsv d b b 1 0 (.ofNat 8 (octetIndex s.config.params b)) 0 .disDtc] else [])
      err := false, ecode := .none, phase := .idle }

/-- BOOLFLD with a defined label pair on a written octet of the frame completes: it emits one BOOL record, and nothing
but OUT, ERR, ECODE and the phase changes. -/
def Obligations.BoolfldCompletes : Prop :=
  ∀ (b : BitNum) (d : Byte) (lp : BitVec 4) (s : State) (o : Byte), legalBit s.config.params b →
    (labelPair s.config.layout.raw lp).isSome = true → octetHolds s (octetIndex s.config.params b) o →
    exec (.boolfld b d lp) s = .next { s with
      out := s.out ++
        [mkRec .bool d b b (if o.getLsbD (bitPosition b) then 1 else 0) 0 (.ofNat 8 (octetIndex s.config.params b)) lp
          .disDtc]
      err := false, ecode := .none, phase := .idle }

/-- CODEDFLD with a defined tag table on a legal range in a written octet of the frame completes: it emits one CODED
record, its TAG the table's lookup of the value, and nothing but OUT, ERR, ECODE and the phase changes. -/
def Obligations.CodedfldCompletes : Prop :=
  ∀ (sb eb : BitNum) (d : Byte) (tt : BitVec 4) (t : TagTable) (s : State) (o v : Byte),
    legalRange s.config.params sb eb → tagTable s.config.layout.raw tt = some t → octetHolds s (octetIndex s.config.params sb) o →
    v = .ofNat 8 (o.toNat / 2 ^ bitPosition sb % 2 ^ (eb.toNat - sb.toNat + 1)) →
    exec (.codedfld sb eb d tt) s = .next { s with
      out := s.out ++ [mkRec .coded d sb eb v (tagLookup t v) (.ofNat 8 (octetIndex s.config.params sb)) tt .disDtc]
      err := false, ecode := .none, phase := .idle }

/-- LP[0] is always the default pair ("Set", "Not set"), whatever the layout, and no other pair is defined but by the
layout (R136). -/
def Obligations.DefaultPairIsAlwaysDefined : Prop :=
  ∀ L : Layout, labelPair L 0 = some ⟨.set, .notSet⟩ ∧
    ∀ (p : BitVec 4) (q : LabelPair), p ≠ 0 → labelPair L p = some q → some q ∈ L.labelPairs

/-- A field record's display pattern has eight positions; position p shows byte bit 7 - p: the digit of VALUE for a bit of
the field, '.' for another. Terminal records have none (R141). -/
def Obligations.DisplayPatternRunsHighToLow : Prop :=
  (∀ (q : Params) (k : RecordKind) (d tag v oct : Byte) (sb eb : BitNum) (aux : BitVec 4) (cls : FrameClass),
    k = .rsv ∨ k = .bool ∨ k = .coded → legalRange q sb eb →
    ∃ P : List Char, displayPattern (mkRec k d sb eb v tag oct aux cls) = some P ∧ P.length = 8 ∧
      ∀ p, p < 8 → P[p]? =
        some (if bitPosition sb ≤ 7 - p ∧ 7 - p ≤ bitPosition eb
          then (if v.getLsbD (7 - p - bitPosition sb) then '1' else '0') else '.')) ∧
  (∀ (k : RecordKind) (d tag v oct : Byte) (sb eb : BitNum) (aux : BitVec 4) (cls : FrameClass),
    k = .short ∨ k = .beyond → displayPattern (mkRec k d sb eb v tag oct aux cls) = none)

/-- A layout becomes a configuration exactly when its lists fit the model's limits and it passes R151's checks, here
written out octet by octet. The first conjunct, the limits on the lists' lengths, is no check of R151: it is the model's
own, DEDUCED from R6's slots (log 5), and leaves LP[0] out since the model has it by construction (log 6). The other two
are R151's WF1 to WF6, their octets 3 to 18 and their 255 read as the parameters R6 names (log 5). -/
def Obligations.OnlyWellFormedLayoutsAreAccepted : Prop :=
  ∀ (p : Params) (L : Layout), (CheckedLayout.accept p L).isSome = true ↔
    (L.disDtc.length ≤ p.lastOctet - p.firstOctet + 1 ∧ L.dcs.length ≤ p.lastOctet - p.firstOctet + 1 ∧
      L.tagTables.length ≤ p.nTT ∧ L.labelPairs.length + 1 ≤ p.nLP) ∧
    (∀ (cls : FrameClass) (i : Nat), p.firstOctet ≤ i → i ≤ p.lastOctet →
      (∀ f ∈ layoutFields p L cls i,
        8 * (i - p.firstOctet) + 1 ≤ f.start.toNat ∧ f.start.toNat ≤ f.stop.toNat ∧
        f.stop.toNat ≤ 8 * (i - p.firstOctet) + 8 ∧
        (f.kind ≠ .coded → f.start = f.stop) ∧
        (f.kind = .rsv → f.aux = 0) ∧
        (f.kind = .bool → ∃ q, labelPair L f.aux = some q) ∧
        (f.kind = .coded → ∃ t, tagTable L f.aux = some t)) ∧
      (layoutFields p L cls i).Pairwise fun f g => f.stop.toNat < g.start.toNat) ∧
    (∀ t, some t ∈ L.tagTables → t.length ≤ p.ttMax)

/-! ### Command faults -/

/-- What a command's decode step does, by cause: the fault of highest priority that applies is reported and the command
has no other effect; where none applies, an unwritten byte it reads is Uninit; and otherwise the command completes with
ERR and ECODE clear and FAULT and FCODE as they were. A word that decodes to no command raises ILLEGAL_CMD whatever the
state (R212, R217). -/
def Obligations.CommandFaultsFollowThePriority : Prop :=
  (∀ (s : State) (e : DecodeError), s.phase = .pending → decodeCmd s.cmdq = .error e →
    engineStep s = .next (faulted .illegalCmd s)) ∧
  (∀ (i : Instr) (s : State) (c : FaultCode), reports i s c → exec i s = .next (faulted c s)) ∧
  (∀ (i : Instr) (s : State), (∀ c, faultApplies i s c = false) →
    (∀ k, byteNeeded i s = some k → s.readFb k = none → exec i s = .fault .uninit) ∧
    ((∀ k, byteNeeded i s = some k → (s.readFb k).isSome = true) →
      ∃ t, exec i s = .next t ∧ t.err = false ∧ t.ecode = .none ∧ t.fault = s.fault ∧ t.fcode = s.fcode))

/-- FAULT and FCODE are sticky: no step but RESET changes them once FAULT is 1, a step that sets FAULT sets FCODE to a
fault's code, and RESET clears both. -/
def Obligations.FirstFaultIsSticky : Prop :=
  ∀ s t : State, step s = .next t →
    (s.schedule.head? ≠ some .reset → s.fault = true → t.fault = true ∧ t.fcode = s.fcode) ∧
    (s.fault = false → t.fault = true → t.fcode ≠ .none) ∧
    (s.schedule.head? = some .reset → t.fault = false ∧ t.fcode = .none)

/-- A fault does not disable the block: whatever FAULT and FCODE hold, the engine's steps and the host's writes do the
same, FAULT and FCODE apart (R214). -/
def Obligations.FaultsDoNotAffectExecution : Prop :=
  ∀ (s : State) (f : Bool) (c : FaultCode),
    ignoringFault (engineStep { s with fault := f, fcode := c }) = ignoringFault (engineStep s) ∧
    ∀ w : HostWrite, ignoringFault (hostWrite w { s with fault := f, fcode := c }) = ignoringFault (hostWrite w s)

/-- Reading an unwritten frame byte stops the machine: in a walk step, in a host byte read, and in a host word read any of
whose four bytes is unwritten. (For the decode steps see CommandFaultsFollowThePriority.) -/
def Obligations.UnwrittenBytesStopTheMachine : Prop :=
  (∀ s : State, s.phase = .walk → s.oi.toNat ≠ s.config.params.oiEnd → s.oi.toNat < s.flen.toNat →
    s.readFb s.oi.toNat = none → engineStep s = .fault .uninit) ∧
  (∀ (s : State) (off : BitVec 12), off.toNat < s.config.fbSize.bytes → s.readFb off.toNat = none →
    hostOp (.rb off) s = .fault .uninit) ∧
  (∀ (s : State) (off : BitVec 12) (j : Nat), off.toNat % 4 = 0 → off.toNat + 3 < s.config.fbSize.bytes → j < 4 →
    s.readFb (off.toNat + j) = none → hostOp (.rw off) s = .fault .uninit)

/-! ### The frame decoder walker -/

/-- DECODE's decode step starts the walk: ERR and ECODE are cleared, TERM <- NONE, CLS from the masked frame-type byte
(class 0 with FLEN < 3, byte 2 unread), OI <- FIRST_OCTET, which R155 writes as 3 (log 5), phase WALK, and nothing else
changes. -/
def Obligations.DecodeStartsTheWalk : Prop :=
  (∀ s : State, s.flen.toNat < 3 →
    exec .decode s = .next { s with
      err := false, ecode := .none, term := .none, cls := .disDtc
      oi := .ofNat 5 s.config.params.firstOctet, phase := .walk }) ∧
  (∀ (s : State) (b : Byte), octetHolds s 2 b →
    exec .decode s = .next { s with
      err := false, ecode := .none, term := .none
      cls := if b &&& s.config.typeMask = s.config.dcsType then .dcs else .disDtc
      oi := .ofNat 5 s.config.params.firstOctet, phase := .walk })

/-- The walk step: BEYOND at OI_END (19 with the defaults of R6) with no byte read, SHORT at an absent octet, and otherwise
the octet's records in list order, then COMPLETE or the next octet (R157). -/
def Obligations.WalkStepFollowsTheOctet : Prop :=
  ∀ s : State, s.phase = .walk →
    (s.oi.toNat = s.config.params.oiEnd →
      engineStep s = .next { s with
        out := s.out ++ [mkRec .beyond 0 0 0 0 0 (.ofNat 8 s.config.params.oiEnd) 0 s.cls]
        term := .beyond, phase := .idle }) ∧
    (s.config.params = {} → s.oi.toNat = 19 →
      engineStep s = .next { s with
        out := s.out ++ [mkRec .beyond 0 0 0 0 0 19 0 s.cls], term := .beyond, phase := .idle }) ∧
    (s.oi.toNat ≠ s.config.params.oiEnd → s.flen.toNat ≤ s.oi.toNat →
      engineStep s = .next { s with
        out := s.out ++ [mkRec .short 0 0 0 0 0 (.ofNat 8 s.oi.toNat) 0 s.cls], term := .short, phase := .idle }) ∧
    (∀ o rs, s.oi.toNat ≠ s.config.params.oiEnd → octetHolds s s.oi.toNat o →
      rs = (layoutFields s.config.params s.config.layout.raw s.cls s.oi.toNat).flatMap
        (fun f => renderField s.config.params s.config.layout.raw f o s.cls) →
      engineStep s =
        if s.config.extFirst.index ≤ s.oi.toNat ∧ o.getLsbD 7 = false
        then .next { s with out := s.out ++ rs, term := .complete, phase := .idle }
        else .next { s with out := s.out ++ rs, oi := s.oi + 1 })

/-- The closed form of a DECODE: from its latched command, the decode step and one walk step at each index from FIRST_OCTET
to the final OI, and no fewer, append exactly the records of decodeFrame and end with its TERM and OI, and nothing else
changes (R163). -/
def Obligations.DecodeMeetsItsClosedForm : Prop :=
  ∀ (s : State) (cls : FrameClass) (d : Decoded), s.phase = .pending → decodeCmd s.cmdq = .ok .decode →
    frameClass s = some cls → decodeFrame s.config s.fb s.flen.toNat cls = some d →
    engineRun (1 + (d.oi - s.config.params.firstOctet + 1)) s = .next { s with
      err := false, ecode := .none, term := d.term, cls := cls, oi := .ofNat 5 d.oi, phase := .idle
      out := s.out ++ d.records } ∧
    ∀ k, k < 1 + (d.oi - s.config.params.firstOctet + 1) → ∃ t, engineRun k s = .next t ∧ t.busy = true

/-- A DECODE ends: each walk step ends the walk or increases OI by 1, to at most OI_END, and after the decode step and
one step at each index from FIRST_OCTET to OI_END the engine is IDLE, unless it has stopped at an unwritten byte; with the
defaults of R6 that is OI <= 19 and 18 engine steps (R164). -/
def Obligations.DecodeEndsWithinEighteenSteps : Prop :=
  (∀ s t : State, s.phase = .walk → s.config.params.firstOctet ≤ s.oi.toNat → s.oi.toNat ≤ s.config.params.oiEnd →
    engineStep s = .next t →
    t.phase = .idle ∨
      (t.phase = .walk ∧ t.oi.toNat = s.oi.toNat + 1 ∧ t.oi.toNat ≤ s.config.params.oiEnd ∧
        (s.config.params = {} → t.oi.toNat ≤ 19))) ∧
  (∀ s : State, s.phase = .pending → decodeCmd s.cmdq = .ok .decode →
    (∃ t, engineRun (decodeSteps s.config.params) s = .next t ∧ t.phase = .idle) ∨
      engineRun (decodeSteps s.config.params) s = .fault .uninit) ∧
  (∀ s : State, s.config.params = {} → s.phase = .pending → decodeCmd s.cmdq = .ok .decode →
    (∃ t, engineRun 18 s = .next t ∧ t.phase = .idle) ∨ engineRun 18 s = .fault .uninit)

/-- A DECODE depends on FB[2], the capability octets (together FB[2..18] with the defaults of R6), FLEN and the
configuration only: two states that agree on these emit the same records
and end alike, whatever RES, STATUS, OUT and the rest hold (R165). -/
def Obligations.DecodeKeepsNoEarlierState : Prop :=
  ∀ s s' t : State, s.phase = .pending → s'.phase = .pending → decodeCmd s.cmdq = .ok .decode →
    decodeCmd s'.cmdq = .ok .decode → s'.config = s.config → s'.flen = s.flen →
    (∀ a, a = 2 ∨ (s.config.params.firstOctet ≤ a ∧ a ≤ s.config.params.lastOctet) → s'.readFb a = s.readFb a) →
    engineRun (decodeSteps s.config.params) s = .next t →
    ∃ t' rs, engineRun (decodeSteps s.config.params) s' = .next t' ∧ t.out = s.out ++ rs ∧ t'.out = s'.out ++ rs ∧
      t.phase = .idle ∧ t'.phase = .idle ∧ t'.term = t.term ∧ t'.cls = t.cls ∧ t'.oi = t.oi

/-- The engine reads FB[2] and the capability octets, inside the frame, only: with the defaults of R6, never FB[0], FB[1], a
byte at FLEN or above, or a byte at 19 or above. Changing the other bytes changes no engine step, the frame buffer itself
apart (R13, R162). -/
def Obligations.EngineReadsOnlyTheFrame : Prop :=
  ∀ (s : State) (m : Memory), 
    (s.phase = .walk → s.config.params.firstOctet ≤ s.oi.toNat ∧ s.oi.toNat ≤ s.config.params.oiEnd) →
    (∀ a, a = 2 ∨ (s.config.params.firstOctet ≤ a ∧ a ≤ s.config.params.lastOctet) → a < s.flen.toNat →
      m.read a = s.fb.read a) →
    ignoringFrame (engineStep { s with fb := m }) = ignoringFrame (engineStep s)

/-- A walk keeps its class: every record it emits carries it, and every field it renders is a descriptor of that class's
layout (R166). -/
def Obligations.WalkRecordsCarryTheClass : Prop :=
  ∀ s t : State, s.phase = .walk → engineStep s = .next t →
    t.cls = s.cls ∧ ∃ rs, t.out = s.out ++ rs ∧ ∀ r ∈ rs, recCls r = s.cls.bit ∧
      (kindOf r = some .short ∨ kindOf r = some .beyond ∨
        ∃ f ∈ layoutFields s.config.params s.config.layout.raw s.cls s.oi.toNat,
          ∃ o, r ∈ renderField s.config.params s.config.layout.raw f o s.cls)

/-- Trailing bytes: a DECODE that ends COMPLETE at octet i does the same whatever the bytes above i hold, written or
not (R167). -/
def Obligations.TrailingBytesDoNotMatter : Prop :=
  ∀ (s t : State) (m : Memory), s.phase = .pending → decodeCmd s.cmdq = .ok .decode →
    engineRun (decodeSteps s.config.params) s = .next t → t.term = .complete →
    (∀ a, a ≤ t.oi.toNat → m.read a = s.fb.read a) →
    engineRun (decodeSteps s.config.params) { s with fb := m } = .next { t with fb := m }

/-- The outcome of a DECODE by the shape of the frame: COMPLETE at i, SHORT at k, BEYOND (R169; its 3, 18 and 19 are
FIRST_OCTET, LAST_OCTET and OI_END, log 5). -/
def Obligations.WalkOutcomeFollowsTheFrame : Prop :=
  ∀ (c : Config) (fb : Memory) (flen : Nat) (cls : FrameClass) (d : Decoded),
    decodeFrame c fb flen cls = some d →
    (∀ i, (d.term = .complete ∧ d.oi = i) ↔
      (c.params.firstOctet ≤ i ∧ i ≤ c.params.lastOctet ∧ i < flen ∧
        (∀ j, c.params.firstOctet ≤ j → c.extFirst.index ≤ j → j < i → extensionSet fb j = true) ∧
        extensionSet fb i = false ∧ c.extFirst.index ≤ i)) ∧
    (∀ k, (d.term = .short ∧ d.oi = k) ↔
      (k = max flen c.params.firstOctet ∧ k ≤ c.params.lastOctet ∧
        ∀ j, c.params.firstOctet ≤ j → c.extFirst.index ≤ j → j < k → extensionSet fb j = true)) ∧
    (d.term = .beyond ↔
      (c.params.oiEnd ≤ flen ∧
        ∀ j, c.params.firstOctet ≤ j → c.extFirst.index ≤ j → j ≤ c.params.lastOctet → extensionSet fb j = true))

/-! ### Invariants -/

/-- The state right after reset meets the invariant. -/
def Obligations.ResetMeetsTheInvariant : Prop := State.reset.Inv

/-- Every step keeps the invariant: the buffer's canonical form and bounds, FLEN's range, OI's legal values, the walk's
progress, the agreement of the fault fields, the legality of a held write and of every record. -/
def Obligations.EveryStepKeepsTheInvariant : Prop :=
  ∀ s t : State, s.Inv → step s = .next t → t.Inv

/-- Nothing writes the configuration: L and the parameters are the same after every step. -/
def Obligations.NoStepChangesTheConfiguration : Prop :=
  ∀ s t : State, step s = .next t → t.config = s.config

/-- OUT is append-only: a step, RESET among them, rewrites no record, and what it appends has a KIND of R92. -/
def Obligations.OutputOnlyGrows : Prop :=
  ∀ s t : State, step s = .next t → ∃ rs, t.out = s.out ++ rs ∧ ∀ r ∈ rs, recordOk r = true

/-- While the engine is busy no step but RESET changes FLEN or CMDQ, and no byte of FB changes but the octet of a SETBIT
that runs (R63, R244). -/
def Obligations.RunningCommandSeesAFixedFrame : Prop :=
  ∀ s t : State, s.busy = true → s.schedule.head? ≠ some .reset → step s = .next t →
    t.flen = s.flen ∧ t.cmdq = s.cmdq ∧
    ∀ a, t.readFb a ≠ s.readFb a →
      ∃ b v, s.phase = .pending ∧ decodeCmd s.cmdq = .ok (.setbit b v) ∧ a = (octetOf s.config.params b).toNat

/-! ### The host interface -/

/-- A host turn with no write held issues the host's next operation (the model's own queue, log 8). -/
def Obligations.HostTurnIssuesTheNextOperation : Prop :=
  ∀ (s : State) (op : HostOp) (ops : List HostOp), s.held = none → s.hostQueue = op :: ops →
    (∀ ts, s.schedule = .host :: ts → step s = hostOp op { s with hostQueue := ops, schedule := ts }) ∧
    (s.schedule = [] → s.phase = .idle → step s = hostOp op { s with hostQueue := ops })

/-- FLEN: a write of v <= FB_SIZE takes effect, a larger one raises BAD_LENGTH and leaves FLEN, and a read returns it
(R55). A legal write is held while the engine is busy (R62), so it is stated in IDLE. -/
def Obligations.LengthRegisterAccess : Prop :=
  ∀ (s : State) (v : Word32),
    (v.toNat ≤ s.config.fbSize.bytes → s.phase = .idle →
      hostOp (.flen v) s = .next { s with flen := .ofNat 9 v.toNat }) ∧
    (s.config.fbSize.bytes < v.toNat → hostOp (.flen v) s = .next (hostFaulted .badLength s)) ∧
    hostOp (.rw 0x100) s = .next { s with hostReads := s.hostReads ++ [.ofNat 32 s.flen.toNat] }

/-- CMD: a write in IDLE latches any word and moves the phase to PENDING, so BUSY reads 1 from then on; it never faults;
while BUSY it is held; a CMD read returns 0 and changes nothing (R56). -/
def Obligations.CommandRegisterAccess : Prop :=
  ∀ (s : State) (w : Word32),
    (s.phase = .idle → hostOp (.cmd w) s = .next { s with cmdq := w, phase := .pending }) ∧
    (statusWord { s with cmdq := w, phase := .pending }).getLsbD 0 = true ∧
    (s.phase ≠ .idle → hostOp (.cmd w) s = .next { s with held := some ⟨32, 0x104, w⟩ }) ∧
    hostOp (.rw 0x104) s = .next { s with hostReads := s.hostReads ++ [0] }

/-- A RES read returns RES and a STATUS read the STATUS word, busy or not, and neither changes anything (R57). -/
def Obligations.ResultAndStatusReads : Prop :=
  ∀ s : State,
    hostOp (.rw 0x108) s = .next { s with hostReads := s.hostReads ++ [s.res] } ∧
    hostOp (.rw 0x10C) s = .next { s with hostReads := s.hostReads ++ [statusWord s] }

/-- The STATUS word's fields, as a sum: BUSY[0] (1 exactly in PENDING or WALK), TERM[2:1], FAULT[3], FCODE[7:4], CLS[8],
OI[13:9], ERR[14], ECODE[18:15], and zeros above (R25, R35). -/
def Obligations.StatusWordHoldsItsFields : Prop :=
  ∀ s : State,
    (statusWord s).toNat =
      (if s.phase = .pending ∨ s.phase = .walk then 1 else 0) + 2 * s.term.code.toNat + 8 * s.fault.toNat
        + 16 * s.fcode.code.toNat + 256 * s.cls.bit.toNat + 512 * s.oi.toNat + 16384 * s.err.toNat
        + 32768 * s.ecode.code.toNat

/-- A write to RES or STATUS, and any access to a reserved offset, raises BUS, at any width, busy or not: a write changes
nothing else and a read returns 0 (R58, R59). -/
def Obligations.ReadOnlyAndReservedOffsetsFault : Prop :=
  ∀ (s : State) (width : Nat) (off : BitVec 12) (v : Word32),
    (off = 0x108 ∨ off = 0x10C → hostOp (.write ⟨width, off, v⟩) s = .next (hostFaulted .bus s)) ∧
    (0x110 ≤ off.toNat ∨ (s.config.fbSize.bytes ≤ off.toNat ∧ off.toNat < 0x100) →
      hostOp (.write ⟨width, off, v⟩) s = .next (hostFaulted .bus s) ∧
      hostOp (.read ⟨width, off⟩) s =
        .next { hostFaulted .bus s with hostReads := s.hostReads ++ [0] })

/-- Widths and alignment: an access to FB that is neither 8 bits wide nor an aligned 32 bits, and an access to the
register offsets that is not 32 bits wide at a register's own offset, raise BUS. -/
def Obligations.IllShapedAccessesFault : Prop :=
  ∀ (s : State) (width : Nat) (off : BitVec 12) (v : Word32),
    (off.toNat < s.config.fbSize.bytes ∧ width ≠ 8 ∧ (width ≠ 32 ∨ off.toNat % 4 ≠ 0)) ∨
    (0x100 ≤ off.toNat ∧ off.toNat < 0x110 ∧ (width ≠ 32 ∨ off.toNat % 4 ≠ 0)) →
    hostOp (.write ⟨width, off, v⟩) s = .next (hostFaulted .bus s) ∧
    hostOp (.read ⟨width, off⟩) s = .next { hostFaulted .bus s with hostReads := s.hostReads ++ [0] }

/-- Byte accesses to FB: in IDLE a byte write at any offset below FB_SIZE writes bits 7:0, whatever FLEN is; a byte read
returns the byte, busy or not. Nothing else changes. (The zero-extension of the byte read is the model's, log 11.) -/
def Obligations.ByteAccessToTheFrame : Prop :=
  ∀ (s : State) (off : BitVec 12), off.toNat < s.config.fbSize.bytes →
    (∀ v : Word32, s.phase = .idle → ∃ t, hostOp (.wb off v) s = .next t ∧
      t.readFb off.toNat = some (.ofNat 8 v.toNat) ∧ (∀ a, a ≠ off.toNat → t.readFb a = s.readFb a) ∧
      { t with fb := s.fb } = s) ∧
    (∀ o : Byte, s.readFb off.toNat = some o →
      hostOp (.rb off) s = .next { s with hostReads := s.hostReads ++ [.ofNat 32 o.toNat] })

/-- 32-bit accesses to FB are little-endian: in IDLE an aligned word write puts byte j of the value at offset + j, in one
step, and changes no other byte; an aligned word read returns the four bytes, the first lowest. -/
def Obligations.WordAccessIsLittleEndian : Prop :=
  ∀ (s : State) (off : BitVec 12), off.toNat % 4 = 0 → off.toNat + 3 < s.config.fbSize.bytes →
    (∀ v : Word32, s.phase = .idle → ∃ t, hostOp (.ww off v) s = .next t ∧
      (∀ j, j < 4 → t.readFb (off.toNat + j) = some (.ofNat 8 (v.toNat / 2 ^ (8 * j)))) ∧
      (∀ a, a < off.toNat ∨ off.toNat + 4 ≤ a → t.readFb a = s.readFb a) ∧
      { t with fb := s.fb } = s) ∧
    (∀ b0 b1 b2 b3 : Byte, s.readFb off.toNat = some b0 → s.readFb (off.toNat + 1) = some b1 →
      s.readFb (off.toNat + 2) = some b2 → s.readFb (off.toNat + 3) = some b3 →
      hostOp (.rw off) s = .next { s with
        hostReads := s.hostReads ++
          [.ofNat 32 (b0.toNat + 2 ^ 8 * b1.toNat + 2 ^ 16 * b2.toNat + 2 ^ 24 * b3.toNat)] })

/-- Held writes: while BUSY a legal write is held and changes nothing, and the host has no further step; once the engine is
IDLE the host's next step is that write, with the effect an unheld write has; reads and faulting writes are not held. -/
def Obligations.WritesAreHeldWhileBusy : Prop :=
  (∀ (s : State) (w : HostWrite), s.busy = true → writeFault s.config w = none →
    hostOp (.write w) s = .next { s with held := some w }) ∧
  (∀ (s : State) (w : HostWrite), s.busy = true → s.held = some w → hostTurn s = .next s) ∧
  (∀ (s : State) (w : HostWrite), s.phase = .idle → s.held = some w → writeFault s.config w = none →
    hostTurn s = .next (applyWrite w { s with held := none }) ∧
    hostOp (.write w) { s with held := none } = .next (applyWrite w { s with held := none })) ∧
  (∀ (s : State) (w : HostWrite) (c : FaultCode), writeFault s.config w = some c →
    hostOp (.write w) s = .next (hostFaulted c s)) ∧
  (∀ (s t : State) (r : HostRead), hostOp (.read r) s = .next t → t.held = s.held)

/-- A host turn while the engine is busy changes at most the held write, the host's queue and reads, FAULT and FCODE; so
of what the engine reads or writes only FAULT and FCODE, by a host-access fault (R215, R251). The host's queue and reads
are the model's own fields (log 8). -/
def Obligations.HostTurnsLeaveTheEngineAlone : Prop :=
  ∀ s t : State, s.busy = true → hostTurn s = .next t →
    { t with
      held := s.held, hostQueue := s.hostQueue, hostReads := s.hostReads, fault := s.fault, fcode := s.fcode } = s

/-- `wait` reads STATUS, at least once, until BUSY reads 0: a read that shows BUSY leaves the `wait` next in the queue, and
one that does not ends it (R94; as an operation of the model's queue, log 12). -/
def Obligations.WaitPollsUntilIdle : Prop :=
  ∀ (s : State) (ops : List HostOp), s.held = none → s.hostQueue = .wait :: ops →
    (s.busy = true → hostTurn s = .next { s with hostReads := s.hostReads ++ [statusWord s] }) ∧
    (s.busy = false →
      hostTurn s = .next { s with hostQueue := ops, hostReads := s.hostReads ++ [statusWord s] })

/-- RESET, whatever the machine is doing: FB unwritten, FLEN, CMDQ, RES and every STATUS field 0, the phase IDLE, a held
write discarded; the records emitted stay, and so does the configuration (R240). -/
def Obligations.ResetClearsTheBlock : Prop :=
  ∀ (s : State) (ts : List Turn), s.schedule = .reset :: ts →
    ∃ t, step s = .next t ∧ (∀ a, t.readFb a = none) ∧ t.flen = 0 ∧ t.cmdq = 0 ∧ t.res = 0 ∧ statusWord t = 0 ∧
      t.term = .none ∧ t.fault = false ∧ t.fcode = .none ∧ t.cls = .disDtc ∧ t.oi = 0 ∧ t.err = false ∧
      t.ecode = .none ∧ t.phase = .idle ∧ t.held = none ∧ t.out = s.out ∧ t.config = s.config

/-- The reset values: FB unwritten, FLEN, CMDQ, RES and the STATUS word 0, OUT empty (R37). -/
def Obligations.ResetValues : Prop :=
  (∀ a, State.reset.readFb a = none) ∧ State.reset.flen = 0 ∧ State.reset.cmdq = 0 ∧ State.reset.res = 0 ∧
  State.reset.phase = .idle ∧ State.reset.term = .none ∧ State.reset.fault = false ∧ State.reset.fcode = .none ∧
  State.reset.cls = .disDtc ∧ State.reset.oi = 0 ∧ State.reset.err = false ∧ State.reset.ecode = .none ∧
  statusWord State.reset = 0 ∧ State.reset.out = [] ∧ State.reset.held = none

/-- The engine waits: in IDLE, with no host operation to come, no write held and no turn scheduled, a step changes nothing;
nothing executes until the host writes a command. -/
def Obligations.IdleMachineWaits : Prop :=
  ∀ s : State, s.phase = .idle → s.held = none → s.hostQueue = [] → s.schedule = [] → step s = .next s
end

