-- ==== Sys2Proof/Laws/Bits.lean ====
section
/-! SUPPORT. Reading a field out of a concatenation of fields. -/

namespace Sys2Proof

/-- A field that lies in the low part of a concatenation. -/
theorem extract_append_low {a b : Nat} (x : BitVec a) (y : BitVec b) (i k : Nat) (h : i + k ≤ b) :
    (x ++ y).extractLsb' i k = y.extractLsb' i k := by
  ext j hj
  simp only [BitVec.getElem_extractLsb', BitVec.getLsbD_append]
  rw [if_pos (by omega)]

/-- A field that lies in the high part of a concatenation. -/
theorem extract_append_high {a b : Nat} (x : BitVec a) (y : BitVec b) (i k : Nat) (h : b ≤ i) :
    (x ++ y).extractLsb' i k = x.extractLsb' (i - b) k := by
  ext j hj
  simp only [BitVec.getElem_extractLsb', BitVec.getLsbD_append]
  rw [if_neg (by omega)]
  congr 1
  omega

/-- The whole of a field. -/
theorem extract_whole {a : Nat} (x : BitVec a) : x.extractLsb' 0 a = x := by
  ext j hj
  simp

/-- The value of a concatenation, as a number. -/
theorem toNat_append_eq {a b : Nat} (x : BitVec a) (y : BitVec b) :
    (x ++ y).toNat = x.toNat * 2 ^ b + y.toNat := by
  rw [BitVec.toNat_append, ← Nat.shiftLeft_add_eq_or_of_lt y.isLt, Nat.shiftLeft_eq]

end Sys2Proof
end

