-- ==== Sys2Proof/Laws/Memory.lean ====
section
/-! SUPPORT. The frame buffer's laws: a read after a write, and the canonical form that every write keeps. -/

namespace Sys2Proof.Machine

theorem Memory.read_write_same (m : Memory) (i : Nat) (v : Byte) : (Memory.write m i v).read i = some v := by
  induction m with
  | nil => simp [Memory.write, Memory.read]
  | cons c m ih =>
    obtain ⟨k, w⟩ := c
    simp only [Memory.write]
    split
    · simp [Memory.read]
    · split
      · simp [Memory.read]
      · rename_i h1 h2
        simp [Memory.read, Ne.symm h2, ih]

theorem Memory.read_write_other (m : Memory) (i a : Nat) (v : Byte) (h : a ≠ i) :
    (Memory.write m i v).read a = Memory.read m a := by
  induction m with
  | nil => simp [Memory.write, Memory.read, Ne.symm h]
  | cons c m ih =>
    obtain ⟨k, w⟩ := c
    simp only [Memory.write]
    split
    · simp [Memory.read, Ne.symm h]
    · split
      · rename_i _ h2
        subst h2
        simp [Memory.read, Ne.symm h]
      · simp [Memory.read, ih]

/-- A read after a write, in one equation. -/
theorem Memory.read_write (m : Memory) (i a : Nat) (v : Byte) :
    (Memory.write m i v).read a = if a = i then some v else Memory.read m a := by
  split
  · rename_i h
    rw [h, Memory.read_write_same]
  · rename_i h
    exact Memory.read_write_other m i a v h

/-- The first index of a written memory: the lower of the two. -/
theorem Memory.write_cons (k i : Nat) (w v : Byte) (m : Memory) :
    ∃ l x m', Memory.write ((k, w) :: m) i v = (l, x) :: m' ∧ l = min i k := by
  simp only [Memory.write]
  split
  · exact ⟨i, v, _, rfl, by omega⟩
  · split
    · exact ⟨i, v, _, rfl, by omega⟩
    · exact ⟨k, w, _, rfl, by omega⟩

/-- The canonical form of a tail. -/
theorem Memory.wf_tail {c : Host.Cell} {m : Memory} (h : Memory.wf (c :: m) = true) : Memory.wf m = true := by
  cases m with
  | nil => rfl
  | cons d m =>
    simp only [Memory.wf, Bool.and_eq_true] at h
    exact h.2

theorem Memory.wf_write (m : Memory) (i : Nat) (v : Byte) (h : m.wf = true) : (m.write i v).wf = true := by
  induction m with
  | nil => rfl
  | cons c m ih =>
    obtain ⟨k, w⟩ := c
    simp only [Memory.write]
    split
    · simp [Memory.wf, *]
    · split
      · rename_i _ he
        subst he
        cases m with
        | nil => rfl
        | cons d m => simpa [Memory.wf] using h
      · have ht := ih (Memory.wf_tail h)
        cases m with
        | nil =>
          simp only [Memory.write, Memory.wf, Bool.and_true, decide_eq_true_eq]
          omega
        | cons d m =>
          obtain ⟨l, x⟩ := d
          obtain ⟨l', x', m', he, hl⟩ := Memory.write_cons l i x v m
          rw [he] at ht ⊢
          simp only [Memory.wf, Bool.and_eq_true, decide_eq_true_eq] at h ⊢
          exact ⟨by omega, ht⟩

theorem Memory.below_write (m : Memory) (i n : Nat) (v : Byte) (hi : i < n) (h : m.below n = true) :
    (m.write i v).below n = true := by
  induction m with
  | nil => simpa [Memory.write, Memory.below] using hi
  | cons c m ih =>
    obtain ⟨k, w⟩ := c
    simp only [Memory.below, List.all_cons, Bool.and_eq_true, decide_eq_true_eq] at h ih
    simp only [Memory.write]
    split
    · simp only [Memory.below, List.all_cons, Bool.and_eq_true, decide_eq_true_eq]
      exact ⟨hi, h⟩
    · split
      · simp only [Memory.below, List.all_cons, Bool.and_eq_true, decide_eq_true_eq]
        exact ⟨hi, h.2⟩
      · simp only [Memory.below, List.all_cons, Bool.and_eq_true, decide_eq_true_eq]
        exact ⟨h.1, ih h.2⟩

/-- Reading through the state's own write. -/
theorem readFb_writeFb (s : State) (i a : Nat) (v : Byte) :
    (s.writeFb i v).readFb a = if a = i then some v else s.readFb a :=
  Memory.read_write s.fb i a v

/-- The reset memory is in canonical form. -/
theorem reset_memory_wf : State.reset.fb.wf = true := rfl

end Sys2Proof.Machine
end

