-- ==== Sys2Proof/Laws/State.lean ====
section
/-! SUPPORT. The fields of each state update, one lemma per field, so that no proof unfolds a record update. -/

namespace Sys2Proof.Machine

@[simp] theorem writeFb_fb (s : State) (i : Nat) (v : Byte) : (s.writeFb i v).fb = s.fb.write i v := rfl
@[simp] theorem writeFb_flen (s : State) (i : Nat) (v : Byte) : (s.writeFb i v).flen = s.flen := rfl
@[simp] theorem writeFb_cmdq (s : State) (i : Nat) (v : Byte) : (s.writeFb i v).cmdq = s.cmdq := rfl
@[simp] theorem writeFb_res (s : State) (i : Nat) (v : Byte) : (s.writeFb i v).res = s.res := rfl
@[simp] theorem writeFb_term (s : State) (i : Nat) (v : Byte) : (s.writeFb i v).term = s.term := rfl
@[simp] theorem writeFb_fault (s : State) (i : Nat) (v : Byte) : (s.writeFb i v).fault = s.fault := rfl
@[simp] theorem writeFb_fcode (s : State) (i : Nat) (v : Byte) : (s.writeFb i v).fcode = s.fcode := rfl
@[simp] theorem writeFb_cls (s : State) (i : Nat) (v : Byte) : (s.writeFb i v).cls = s.cls := rfl
@[simp] theorem writeFb_oi (s : State) (i : Nat) (v : Byte) : (s.writeFb i v).oi = s.oi := rfl
@[simp] theorem writeFb_err (s : State) (i : Nat) (v : Byte) : (s.writeFb i v).err = s.err := rfl
@[simp] theorem writeFb_ecode (s : State) (i : Nat) (v : Byte) : (s.writeFb i v).ecode = s.ecode := rfl
@[simp] theorem writeFb_phase (s : State) (i : Nat) (v : Byte) : (s.writeFb i v).phase = s.phase := rfl
@[simp] theorem writeFb_out (s : State) (i : Nat) (v : Byte) : (s.writeFb i v).out = s.out := rfl
@[simp] theorem writeFb_held (s : State) (i : Nat) (v : Byte) : (s.writeFb i v).held = s.held := rfl
@[simp] theorem writeFb_config (s : State) (i : Nat) (v : Byte) : (s.writeFb i v).config = s.config := rfl
@[simp] theorem writeFb_hostQueue (s : State) (i : Nat) (v : Byte) : (s.writeFb i v).hostQueue = s.hostQueue := rfl
@[simp] theorem writeFb_hostReads (s : State) (i : Nat) (v : Byte) : (s.writeFb i v).hostReads = s.hostReads := rfl
@[simp] theorem writeFb_schedule (s : State) (i : Nat) (v : Byte) : (s.writeFb i v).schedule = s.schedule := rfl

@[simp] theorem emit_fb (s : State) (rs : List Record) : (s.emit rs).fb = s.fb := rfl
@[simp] theorem emit_flen (s : State) (rs : List Record) : (s.emit rs).flen = s.flen := rfl
@[simp] theorem emit_cmdq (s : State) (rs : List Record) : (s.emit rs).cmdq = s.cmdq := rfl
@[simp] theorem emit_res (s : State) (rs : List Record) : (s.emit rs).res = s.res := rfl
@[simp] theorem emit_term (s : State) (rs : List Record) : (s.emit rs).term = s.term := rfl
@[simp] theorem emit_fault (s : State) (rs : List Record) : (s.emit rs).fault = s.fault := rfl
@[simp] theorem emit_fcode (s : State) (rs : List Record) : (s.emit rs).fcode = s.fcode := rfl
@[simp] theorem emit_cls (s : State) (rs : List Record) : (s.emit rs).cls = s.cls := rfl
@[simp] theorem emit_oi (s : State) (rs : List Record) : (s.emit rs).oi = s.oi := rfl
@[simp] theorem emit_err (s : State) (rs : List Record) : (s.emit rs).err = s.err := rfl
@[simp] theorem emit_ecode (s : State) (rs : List Record) : (s.emit rs).ecode = s.ecode := rfl
@[simp] theorem emit_phase (s : State) (rs : List Record) : (s.emit rs).phase = s.phase := rfl
@[simp] theorem emit_out (s : State) (rs : List Record) : (s.emit rs).out = s.out ++ rs := rfl
@[simp] theorem emit_held (s : State) (rs : List Record) : (s.emit rs).held = s.held := rfl
@[simp] theorem emit_config (s : State) (rs : List Record) : (s.emit rs).config = s.config := rfl
@[simp] theorem emit_hostQueue (s : State) (rs : List Record) : (s.emit rs).hostQueue = s.hostQueue := rfl
@[simp] theorem emit_hostReads (s : State) (rs : List Record) : (s.emit rs).hostReads = s.hostReads := rfl
@[simp] theorem emit_schedule (s : State) (rs : List Record) : (s.emit rs).schedule = s.schedule := rfl

@[simp] theorem setRes_fb (s : State) (v : Word32) : (s.setRes v).fb = s.fb := rfl
@[simp] theorem setRes_flen (s : State) (v : Word32) : (s.setRes v).flen = s.flen := rfl
@[simp] theorem setRes_cmdq (s : State) (v : Word32) : (s.setRes v).cmdq = s.cmdq := rfl
@[simp] theorem setRes_res (s : State) (v : Word32) : (s.setRes v).res = v := rfl
@[simp] theorem setRes_term (s : State) (v : Word32) : (s.setRes v).term = s.term := rfl
@[simp] theorem setRes_fault (s : State) (v : Word32) : (s.setRes v).fault = s.fault := rfl
@[simp] theorem setRes_fcode (s : State) (v : Word32) : (s.setRes v).fcode = s.fcode := rfl
@[simp] theorem setRes_cls (s : State) (v : Word32) : (s.setRes v).cls = s.cls := rfl
@[simp] theorem setRes_oi (s : State) (v : Word32) : (s.setRes v).oi = s.oi := rfl
@[simp] theorem setRes_err (s : State) (v : Word32) : (s.setRes v).err = s.err := rfl
@[simp] theorem setRes_ecode (s : State) (v : Word32) : (s.setRes v).ecode = s.ecode := rfl
@[simp] theorem setRes_phase (s : State) (v : Word32) : (s.setRes v).phase = s.phase := rfl
@[simp] theorem setRes_out (s : State) (v : Word32) : (s.setRes v).out = s.out := rfl
@[simp] theorem setRes_held (s : State) (v : Word32) : (s.setRes v).held = s.held := rfl
@[simp] theorem setRes_config (s : State) (v : Word32) : (s.setRes v).config = s.config := rfl
@[simp] theorem setRes_hostQueue (s : State) (v : Word32) : (s.setRes v).hostQueue = s.hostQueue := rfl
@[simp] theorem setRes_hostReads (s : State) (v : Word32) : (s.setRes v).hostReads = s.hostReads := rfl
@[simp] theorem setRes_schedule (s : State) (v : Word32) : (s.setRes v).schedule = s.schedule := rfl

@[simp] theorem toIdle_fb (s : State) : (s.toIdle).fb = s.fb := rfl
@[simp] theorem toIdle_flen (s : State) : (s.toIdle).flen = s.flen := rfl
@[simp] theorem toIdle_cmdq (s : State) : (s.toIdle).cmdq = s.cmdq := rfl
@[simp] theorem toIdle_res (s : State) : (s.toIdle).res = s.res := rfl
@[simp] theorem toIdle_term (s : State) : (s.toIdle).term = s.term := rfl
@[simp] theorem toIdle_fault (s : State) : (s.toIdle).fault = s.fault := rfl
@[simp] theorem toIdle_fcode (s : State) : (s.toIdle).fcode = s.fcode := rfl
@[simp] theorem toIdle_cls (s : State) : (s.toIdle).cls = s.cls := rfl
@[simp] theorem toIdle_oi (s : State) : (s.toIdle).oi = s.oi := rfl
@[simp] theorem toIdle_err (s : State) : (s.toIdle).err = s.err := rfl
@[simp] theorem toIdle_ecode (s : State) : (s.toIdle).ecode = s.ecode := rfl
@[simp] theorem toIdle_phase (s : State) : (s.toIdle).phase = .idle := rfl
@[simp] theorem toIdle_out (s : State) : (s.toIdle).out = s.out := rfl
@[simp] theorem toIdle_held (s : State) : (s.toIdle).held = s.held := rfl
@[simp] theorem toIdle_config (s : State) : (s.toIdle).config = s.config := rfl
@[simp] theorem toIdle_hostQueue (s : State) : (s.toIdle).hostQueue = s.hostQueue := rfl
@[simp] theorem toIdle_hostReads (s : State) : (s.toIdle).hostReads = s.hostReads := rfl
@[simp] theorem toIdle_schedule (s : State) : (s.toIdle).schedule = s.schedule := rfl

@[simp] theorem markError_fb (c : FaultCode) (s : State) : (markError c s).fb = s.fb := rfl
@[simp] theorem markError_flen (c : FaultCode) (s : State) : (markError c s).flen = s.flen := rfl
@[simp] theorem markError_cmdq (c : FaultCode) (s : State) : (markError c s).cmdq = s.cmdq := rfl
@[simp] theorem markError_res (c : FaultCode) (s : State) : (markError c s).res = s.res := rfl
@[simp] theorem markError_term (c : FaultCode) (s : State) : (markError c s).term = s.term := rfl
@[simp] theorem markError_fault (c : FaultCode) (s : State) : (markError c s).fault = s.fault := rfl
@[simp] theorem markError_fcode (c : FaultCode) (s : State) : (markError c s).fcode = s.fcode := rfl
@[simp] theorem markError_cls (c : FaultCode) (s : State) : (markError c s).cls = s.cls := rfl
@[simp] theorem markError_oi (c : FaultCode) (s : State) : (markError c s).oi = s.oi := rfl
@[simp] theorem markError_err (c : FaultCode) (s : State) : (markError c s).err = true := rfl
@[simp] theorem markError_ecode (c : FaultCode) (s : State) : (markError c s).ecode = c := rfl
@[simp] theorem markError_phase (c : FaultCode) (s : State) : (markError c s).phase = s.phase := rfl
@[simp] theorem markError_out (c : FaultCode) (s : State) : (markError c s).out = s.out := rfl
@[simp] theorem markError_held (c : FaultCode) (s : State) : (markError c s).held = s.held := rfl
@[simp] theorem markError_config (c : FaultCode) (s : State) : (markError c s).config = s.config := rfl
@[simp] theorem markError_hostQueue (c : FaultCode) (s : State) : (markError c s).hostQueue = s.hostQueue := rfl
@[simp] theorem markError_hostReads (c : FaultCode) (s : State) : (markError c s).hostReads = s.hostReads := rfl
@[simp] theorem markError_schedule (c : FaultCode) (s : State) : (markError c s).schedule = s.schedule := rfl

@[simp] theorem clearError_fb (s : State) : (clearError s).fb = s.fb := rfl
@[simp] theorem clearError_flen (s : State) : (clearError s).flen = s.flen := rfl
@[simp] theorem clearError_cmdq (s : State) : (clearError s).cmdq = s.cmdq := rfl
@[simp] theorem clearError_res (s : State) : (clearError s).res = s.res := rfl
@[simp] theorem clearError_term (s : State) : (clearError s).term = s.term := rfl
@[simp] theorem clearError_fault (s : State) : (clearError s).fault = s.fault := rfl
@[simp] theorem clearError_fcode (s : State) : (clearError s).fcode = s.fcode := rfl
@[simp] theorem clearError_cls (s : State) : (clearError s).cls = s.cls := rfl
@[simp] theorem clearError_oi (s : State) : (clearError s).oi = s.oi := rfl
@[simp] theorem clearError_err (s : State) : (clearError s).err = false := rfl
@[simp] theorem clearError_ecode (s : State) : (clearError s).ecode = .none := rfl
@[simp] theorem clearError_phase (s : State) : (clearError s).phase = s.phase := rfl
@[simp] theorem clearError_out (s : State) : (clearError s).out = s.out := rfl
@[simp] theorem clearError_held (s : State) : (clearError s).held = s.held := rfl
@[simp] theorem clearError_config (s : State) : (clearError s).config = s.config := rfl
@[simp] theorem clearError_hostQueue (s : State) : (clearError s).hostQueue = s.hostQueue := rfl
@[simp] theorem clearError_hostReads (s : State) : (clearError s).hostReads = s.hostReads := rfl
@[simp] theorem clearError_schedule (s : State) : (clearError s).schedule = s.schedule := rfl

@[simp] theorem answer_fb (s : State) (v : Word32) : (s.answer v).fb = s.fb := rfl
@[simp] theorem answer_flen (s : State) (v : Word32) : (s.answer v).flen = s.flen := rfl
@[simp] theorem answer_cmdq (s : State) (v : Word32) : (s.answer v).cmdq = s.cmdq := rfl
@[simp] theorem answer_res (s : State) (v : Word32) : (s.answer v).res = s.res := rfl
@[simp] theorem answer_term (s : State) (v : Word32) : (s.answer v).term = s.term := rfl
@[simp] theorem answer_fault (s : State) (v : Word32) : (s.answer v).fault = s.fault := rfl
@[simp] theorem answer_fcode (s : State) (v : Word32) : (s.answer v).fcode = s.fcode := rfl
@[simp] theorem answer_cls (s : State) (v : Word32) : (s.answer v).cls = s.cls := rfl
@[simp] theorem answer_oi (s : State) (v : Word32) : (s.answer v).oi = s.oi := rfl
@[simp] theorem answer_err (s : State) (v : Word32) : (s.answer v).err = s.err := rfl
@[simp] theorem answer_ecode (s : State) (v : Word32) : (s.answer v).ecode = s.ecode := rfl
@[simp] theorem answer_phase (s : State) (v : Word32) : (s.answer v).phase = s.phase := rfl
@[simp] theorem answer_out (s : State) (v : Word32) : (s.answer v).out = s.out := rfl
@[simp] theorem answer_held (s : State) (v : Word32) : (s.answer v).held = s.held := rfl
@[simp] theorem answer_config (s : State) (v : Word32) : (s.answer v).config = s.config := rfl
@[simp] theorem answer_hostQueue (s : State) (v : Word32) : (s.answer v).hostQueue = s.hostQueue := rfl
@[simp] theorem answer_hostReads (s : State) (v : Word32) : (s.answer v).hostReads = s.hostReads ++ [v] := rfl
@[simp] theorem answer_schedule (s : State) (v : Word32) : (s.answer v).schedule = s.schedule := rfl

@[simp] theorem stickyFault_fb (c : FaultCode) (s : State) : (stickyFault c s).fb = s.fb := by
  unfold stickyFault; split <;> rfl
@[simp] theorem stickyFault_flen (c : FaultCode) (s : State) : (stickyFault c s).flen = s.flen := by
  unfold stickyFault; split <;> rfl
@[simp] theorem stickyFault_cmdq (c : FaultCode) (s : State) : (stickyFault c s).cmdq = s.cmdq := by
  unfold stickyFault; split <;> rfl
@[simp] theorem stickyFault_res (c : FaultCode) (s : State) : (stickyFault c s).res = s.res := by
  unfold stickyFault; split <;> rfl
@[simp] theorem stickyFault_term (c : FaultCode) (s : State) : (stickyFault c s).term = s.term := by
  unfold stickyFault; split <;> rfl
@[simp] theorem stickyFault_fault (c : FaultCode) (s : State) : (stickyFault c s).fault = true := by
  unfold stickyFault; split <;> simp_all
@[simp] theorem stickyFault_fcode (c : FaultCode) (s : State) : (stickyFault c s).fcode = if s.fault then s.fcode else c := by
  unfold stickyFault; split <;> rfl
@[simp] theorem stickyFault_cls (c : FaultCode) (s : State) : (stickyFault c s).cls = s.cls := by
  unfold stickyFault; split <;> rfl
@[simp] theorem stickyFault_oi (c : FaultCode) (s : State) : (stickyFault c s).oi = s.oi := by
  unfold stickyFault; split <;> rfl
@[simp] theorem stickyFault_err (c : FaultCode) (s : State) : (stickyFault c s).err = s.err := by
  unfold stickyFault; split <;> rfl
@[simp] theorem stickyFault_ecode (c : FaultCode) (s : State) : (stickyFault c s).ecode = s.ecode := by
  unfold stickyFault; split <;> rfl
@[simp] theorem stickyFault_phase (c : FaultCode) (s : State) : (stickyFault c s).phase = s.phase := by
  unfold stickyFault; split <;> rfl
@[simp] theorem stickyFault_out (c : FaultCode) (s : State) : (stickyFault c s).out = s.out := by
  unfold stickyFault; split <;> rfl
@[simp] theorem stickyFault_held (c : FaultCode) (s : State) : (stickyFault c s).held = s.held := by
  unfold stickyFault; split <;> rfl
@[simp] theorem stickyFault_config (c : FaultCode) (s : State) : (stickyFault c s).config = s.config := by
  unfold stickyFault; split <;> rfl
@[simp] theorem stickyFault_hostQueue (c : FaultCode) (s : State) : (stickyFault c s).hostQueue = s.hostQueue := by
  unfold stickyFault; split <;> rfl
@[simp] theorem stickyFault_hostReads (c : FaultCode) (s : State) : (stickyFault c s).hostReads = s.hostReads := by
  unfold stickyFault; split <;> rfl
@[simp] theorem stickyFault_schedule (c : FaultCode) (s : State) : (stickyFault c s).schedule = s.schedule := by
  unfold stickyFault; split <;> rfl

@[simp] theorem resetAction_fb (s : State) : (resetAction s).fb = [] := rfl
@[simp] theorem resetAction_flen (s : State) : (resetAction s).flen = 0 := rfl
@[simp] theorem resetAction_cmdq (s : State) : (resetAction s).cmdq = 0 := rfl
@[simp] theorem resetAction_res (s : State) : (resetAction s).res = 0 := rfl
@[simp] theorem resetAction_term (s : State) : (resetAction s).term = .none := rfl
@[simp] theorem resetAction_fault (s : State) : (resetAction s).fault = false := rfl
@[simp] theorem resetAction_fcode (s : State) : (resetAction s).fcode = .none := rfl
@[simp] theorem resetAction_cls (s : State) : (resetAction s).cls = .disDtc := rfl
@[simp] theorem resetAction_oi (s : State) : (resetAction s).oi = 0 := rfl
@[simp] theorem resetAction_err (s : State) : (resetAction s).err = false := rfl
@[simp] theorem resetAction_ecode (s : State) : (resetAction s).ecode = .none := rfl
@[simp] theorem resetAction_phase (s : State) : (resetAction s).phase = .idle := rfl
@[simp] theorem resetAction_out (s : State) : (resetAction s).out = s.out := rfl
@[simp] theorem resetAction_held (s : State) : (resetAction s).held = none := rfl
@[simp] theorem resetAction_config (s : State) : (resetAction s).config = s.config := rfl
@[simp] theorem resetAction_hostQueue (s : State) : (resetAction s).hostQueue = s.hostQueue := rfl
@[simp] theorem resetAction_hostReads (s : State) : (resetAction s).hostReads = s.hostReads := rfl
@[simp] theorem resetAction_schedule (s : State) : (resetAction s).schedule = s.schedule := rfl

end Sys2Proof.Machine
end

