-- ==== Sys2Proof/Laws/Ops.lean ====
section
/-! SUPPORT. What each shared operation of the commands can do, said once. -/

namespace Sys2Proof.Machine

/-- A command fault always answers the faulted state. -/
theorem commandFault_eq (c : FaultCode) (s : State) : commandFault c s = .next (faulted c s) := by
  unfold commandFault stickyFault markError State.toIdle faulted
  by_cases h : s.fault = true
  · simp [h]
  · simp [h]

/-- The end of a command always answers the state with ERR, ECODE clear and the phase IDLE. -/
theorem complete_eq (s : State) :
    complete s = .next { s with err := false, ecode := .none, phase := .idle } := rfl

/-- A host-access fault writes FAULT and FCODE only. -/
theorem hostFault_eq (c : FaultCode) (s : State) : hostFault c s = hostFaulted c s := by
  unfold hostFault stickyFault hostFaulted
  by_cases h : s.fault = true
  · obtain ⟨⟩ := s
    simp_all
  · simp [h]

@[simp] theorem unlessFault_some (c : FaultCode) (s : State) (k : Result) :
    unlessFault (some c) s k = .next (faulted c s) := commandFault_eq c s

@[simp] theorem unlessFault_none (s : State) (k : Result) : unlessFault none s k = k := rfl

/-- The three things `withTarget` can do. -/
theorem withTarget_cases (b : BitNum) (s : State) (k : Byte → Result) :
    (s.flen.toNat ≤ (octetOf s.config.params b).toNat ∧ withTarget b s k = .next (faulted .outOfFrame s)) ∨
    ((octetOf s.config.params b).toNat < s.flen.toNat ∧ s.readFb (octetOf s.config.params b).toNat = none ∧
      withTarget b s k = .fault .uninit) ∨
    (∃ o, octetHolds s (octetOf s.config.params b).toNat o ∧ withTarget b s k = k o) := by
  unfold withTarget octetAbsent octetHolds
  by_cases h : s.flen.toNat ≤ (octetOf s.config.params b).toNat
  · exact .inl ⟨h, by simp [h, commandFault_eq]⟩
  · have h' : (octetOf s.config.params b).toNat < s.flen.toNat := by omega
    cases hr : s.readFb (octetOf s.config.params b).toNat with
    | none => exact .inr (.inl ⟨h', rfl, by simp [h]⟩)
    | some o => exact .inr (.inr ⟨o, ⟨h', rfl⟩, by simp [h]⟩)

/-- Inside the frame, on a written byte, `withTarget` hands the byte on. -/
theorem withTarget_present (b : BitNum) (s : State) (k : Byte → Result) (o : Byte)
    (h : octetHolds s (octetOf s.config.params b).toNat o) : withTarget b s k = k o := by
  unfold withTarget octetAbsent
  have h1 : ¬ s.flen.toNat ≤ (octetOf s.config.params b).toNat := by have := h.1; omega
  simp [h1, h.2]

/-- Outside the frame `withTarget` raises OUT_OF_FRAME. -/
theorem withTarget_absent (b : BitNum) (s : State) (k : Byte → Result)
    (h : s.flen.toNat ≤ (octetOf s.config.params b).toNat) : withTarget b s k = .next (faulted .outOfFrame s) := by
  unfold withTarget octetAbsent
  simp [h, commandFault_eq]

/-- The operand check of a one-bit command passes exactly on a legal bit number. -/
theorem bitFault_eq_none (p : Params) (b : BitNum) : bitFault p b = none ↔ legalBit p b := by
  simp [bitFault, bitInRange]

/-- A one-bit command's operand fault is BIT_RANGE. -/
theorem bitFault_eq_some (p : Params) (b : BitNum) (c : FaultCode) (h : bitFault p b = some c) :
    c = .bitRange ∧ ¬ legalBit p b := by
  unfold bitFault at h
  split at h
  · cases h
  · rename_i hr
    exact ⟨by injection h with h; exact h.symm, fun hl => hr (by simpa [bitInRange] using hl)⟩

/-- A range command's operand fault is BIT_RANGE, FIELD_ORDER or FIELD_SPAN. -/
theorem rangeFault_code (p : Params) (sb eb : BitNum) (c : FaultCode) (h : rangeFault p sb eb = some c) :
    c = .bitRange ∨ c = .fieldOrder ∨ c = .fieldSpan := by
  unfold rangeFault at h
  repeat' split at h
  all_goals simp_all

end Sys2Proof.Machine
end

