-- ==== Sys2Proof/Laws/Walk.lean ====
section
/-! SUPPORT. What DECODE's decode step and a walk step can do, said once. -/

namespace Sys2Proof.Machine

/-- DECODE's decode step: Uninit, or the start of a walk. -/
theorem execDecode_cases (s : State) :
    (frameClass s = none ∧ execDecode s = .fault .uninit) ∨
    (∃ cls, frameClass s = some cls ∧
      execDecode s = .next { s with
        err := false, ecode := .none, term := .none, cls := cls
        oi := .ofNat 5 s.config.params.firstOctet, phase := .walk }) := by
  unfold execDecode
  cases h : frameClass s with
  | none => exact .inl ⟨rfl, rfl⟩
  | some cls => exact .inr ⟨cls, rfl, rfl⟩

/-- FIRST_OCTET fits OI's 5 bits, so OI <- FIRST_OCTET is FIRST_OCTET. -/
theorem firstOctet_toNat (p : Params) : (BitVec.ofNat 5 p.firstOctet).toNat = p.firstOctet := by
  obtain ⟨_, ⟨_, hl⟩, ⟨he, h31⟩, _⟩ := p.ok
  rw [BitVec.toNat_ofNat]
  omega

/-- The capability octets run from FIRST_OCTET up to OI_END. -/
theorem firstOctet_add_octetCount (p : Params) : p.firstOctet + octetCount p = p.oiEnd := by
  obtain ⟨_, ⟨_, hl⟩, ⟨he, _⟩, _⟩ := p.ok
  unfold octetCount
  omega

/-- Below OI_END the next octet's index does not wrap. -/
theorem oi_succ_toNat (s : State) (h : s.oi.toNat < s.config.params.oiEnd) : (s.oi + 1).toNat = s.oi.toNat + 1 := by
  have h31 := s.config.params.ok.2.2.1.2
  rw [BitVec.toNat_add, show (1 : BitVec 5).toNat = 1 from rfl]
  omega

/-- The records that rendering octet `oi` emits. -/
def octetRecords (s : State) (o : Byte) : List Record :=
  renderFields s.config.params s.config.layout.raw
    (layoutFields s.config.params s.config.layout.raw s.cls s.oi.toNat) o s.cls

/-- A walk step: BEYOND, SHORT, Uninit, COMPLETE, or the next octet. -/
theorem walkStep_cases (s : State) :
    (s.oi.toNat = s.config.params.oiEnd ∧ walkStep s = .next { s with
        out := s.out ++ [beyondRecord s.config.params s.cls], term := .beyond, phase := .idle }) ∨
    (s.oi.toNat ≠ s.config.params.oiEnd ∧ s.flen.toNat ≤ s.oi.toNat ∧ walkStep s = .next { s with
        out := s.out ++ [shortRecord (s.oi.zeroExtend 8) s.cls], term := .short, phase := .idle }) ∨
    (s.oi.toNat ≠ s.config.params.oiEnd ∧ s.oi.toNat < s.flen.toNat ∧ s.readFb s.oi.toNat = none ∧
      walkStep s = .fault .uninit) ∨
    (∃ o, s.oi.toNat ≠ s.config.params.oiEnd ∧ octetHolds s s.oi.toNat o ∧ extensionClear s.config s.oi.toNat o = true ∧
      walkStep s = .next { s with out := s.out ++ octetRecords s o, term := .complete, phase := .idle }) ∨
    (∃ o, s.oi.toNat ≠ s.config.params.oiEnd ∧ octetHolds s s.oi.toNat o ∧ extensionClear s.config s.oi.toNat o = false ∧
      walkStep s = .next { s with out := s.out ++ octetRecords s o, oi := s.oi + 1 }) := by
  unfold walkStep octetAbsent octetHolds octetRecords
  by_cases h19 : s.oi.toNat = s.config.params.oiEnd
  · exact .inl ⟨h19, by simp [h19, endWalk, State.emit]⟩
  · by_cases hf : s.flen.toNat ≤ s.oi.toNat
    · exact .inr (.inl ⟨h19, hf, by simp [h19, hf, endWalk, State.emit]⟩)
    · have hf' : s.oi.toNat < s.flen.toNat := by omega
      cases hr : s.readFb s.oi.toNat with
      | none => exact .inr (.inr (.inl ⟨h19, hf', rfl, by simp [h19, hf]⟩))
      | some o =>
        cases he : extensionClear s.config s.oi.toNat o with
        | true =>
          exact .inr (.inr (.inr (.inl ⟨o, h19, ⟨hf', rfl⟩, he, by simp [h19, hf, he, endWalk, State.emit]⟩)))
        | false =>
          exact .inr (.inr (.inr (.inr ⟨o, h19, ⟨hf', rfl⟩, he, by simp [h19, hf, he, State.emit]⟩)))

/-- The KIND field of a record word. -/
theorem recKind_mkRec (k : RecordKind) (d s e v t o : Byte) (a : BitVec 4) (cls : FrameClass) :
    recKind (mkRec k d s e v t o a cls) = k.code := by
  unfold recKind mkRec
  rw [extract_append_high (h := by omega), extract_append_high (h := by omega), extract_append_high (h := by omega),
    extract_append_high (h := by omega), extract_append_high (h := by omega), extract_append_high (h := by omega),
    extract_append_high (h := by omega), extract_append_high (h := by omega), extract_append_high (h := by omega)]
  exact extract_whole k.code

/-- Bits 7:1 of a record word. -/
theorem recZero_mkRec (k : RecordKind) (d s e v t o : Byte) (a : BitVec 4) (cls : FrameClass) :
    recZero (mkRec k d s e v t o a cls) = 0 := by
  unfold recZero mkRec
  rw [extract_append_high (h := by omega), extract_append_low (h := by omega)]
  rfl

/-- Every record the renderer makes is a word of R91 and R92. -/
theorem mkRec_recordOk (k : RecordKind) (d s e v t o : Byte) (a : BitVec 4) (cls : FrameClass) :
    recordOk (mkRec k d s e v t o a cls) = true := by
  unfold recordOk kindOf
  rw [recKind_mkRec, recZero_mkRec]
  cases k <;> decide

end Sys2Proof.Machine
end

