-- ==== Sys2Proof/Laws/Exec.lean ====
section
/-! SUPPORT. What the decode step of a command can do when it answers a next state, said once for all commands. -/

namespace Sys2Proof.Machine

/-- The state after a one-step command that did not fault, from the state its effect left. -/
def completed (s : State) : State := { s with err := false, ecode := .none, phase := .idle }

/-- The codes a decoded command can report (R211): neither NONE, nor ILLEGAL_CMD, nor a host-access fault's. -/
def FaultCode.ofCommand (c : FaultCode) : Prop := c ≠ .none ∧ c ≠ .illegalCmd ∧ c ≠ .badLength ∧ c ≠ .bus

theorem bitFault_ofCommand (p : Params) (b : BitNum) (c : FaultCode) (h : bitFault p b = some c) : c.ofCommand := by
  rw [(bitFault_eq_some p b c h).1]
  simp [FaultCode.ofCommand]

theorem rangeFault_ofCommand (p : Params) (sb eb : BitNum) (c : FaultCode) (h : rangeFault p sb eb = some c) :
    c.ofCommand := by
  rcases rangeFault_code p sb eb c h with rfl | rfl | rfl <;> simp [FaultCode.ofCommand]

theorem pairFault_ofCommand (s : State) (lp : BitVec 4) (c : FaultCode) (h : pairFault s lp = some c) :
    c.ofCommand := by
  unfold pairFault at h
  split at h
  · cases h
  · injection h with h
    subst h
    simp [FaultCode.ofCommand]

/-- `unlessFault` answers a next state by the fault, or by going on. -/
theorem unlessFault_next {f : Option FaultCode} {s t : State} {k : Result} (h : unlessFault f s k = .next t) :
    (∃ c, f = some c ∧ t = faulted c s) ∨ (f = none ∧ k = .next t) := by
  cases f with
  | some c =>
    rw [unlessFault_some] at h
    injection h with h
    exact .inl ⟨c, rfl, h.symm⟩
  | none => exact .inr ⟨rfl, h⟩

/-- `withTarget` answers a next state by OUT_OF_FRAME, or by going on with a written octet of the frame. -/
theorem withTarget_next {b : BitNum} {s t : State} {k : Byte → Result} (h : withTarget b s k = .next t) :
    t = faulted .outOfFrame s ∨ (∃ o, octetHolds s (octetOf s.config.params b).toNat o ∧ k o = .next t) := by
  rcases withTarget_cases b s k with ⟨_, e⟩ | ⟨_, _, e⟩ | ⟨o, ho, e⟩ <;> rw [e] at h
  · injection h with h
    exact .inl h.symm
  · cases h
  · exact .inr ⟨o, ho, h⟩

/-- A command that answers a next state either faulted, or wrote RES, or stored its bit's octet, or emitted records, or
started a walk. -/
theorem exec_cases (i : Instr) (s t : State) (h : exec i s = .next t) :
    (∃ c, t = faulted c s ∧ c.ofCommand ∧ i ≠ .decode) ∨
    (((∃ b, i = .map b) ∨ (∃ b, i = .testbit b) ∨ ∃ sb eb, i = .getfield sb eb) ∧ ∃ v, t = completed (s.setRes v)) ∨
    (∃ b v o, i = .setbit b v ∧ legalBit s.config.params b ∧ octetHolds s (octetOf s.config.params b).toNat o ∧
      t = completed (s.writeFb (octetOf s.config.params b).toNat (withBit o b v))) ∨
    (((∃ b d, i = .rsvchk b d) ∨ (∃ b d lp, i = .boolfld b d lp) ∨ ∃ sb eb d tt, i = .codedfld sb eb d tt) ∧
      ∃ rs, t = completed (s.emit rs) ∧ ∀ r ∈ rs, recordOk r = true) ∨
    (i = .decode ∧ ∃ cls, t = { s with
      err := false, ecode := .none, term := .none, cls := cls
      oi := .ofNat 5 s.config.params.firstOctet, phase := .walk }) := by
  have outOfFrame : FaultCode.outOfFrame.ofCommand := by simp [FaultCode.ofCommand]
  cases i with
  | map b =>
    rcases unlessFault_next h with ⟨c, hc, e⟩ | ⟨_, e⟩
    · exact .inl ⟨c, e, bitFault_ofCommand _ b c hc, nofun⟩
    · injection e with e
      exact .inr (.inl ⟨.inl ⟨b, rfl⟩, _, e.symm⟩)
  | testbit b =>
    rcases unlessFault_next h with ⟨c, hc, e⟩ | ⟨_, e⟩
    · exact .inl ⟨c, e, bitFault_ofCommand _ b c hc, nofun⟩
    · rcases withTarget_next e with e | ⟨o, _, e⟩
      · exact .inl ⟨_, e, outOfFrame, nofun⟩
      · injection e with e
        exact .inr (.inl ⟨.inr (.inl ⟨b, rfl⟩), _, e.symm⟩)
  | getfield sb eb =>
    rcases unlessFault_next h with ⟨c, hc, e⟩ | ⟨_, e⟩
    · exact .inl ⟨c, e, rangeFault_ofCommand _ sb eb c hc, nofun⟩
    · rcases withTarget_next e with e | ⟨o, _, e⟩
      · exact .inl ⟨_, e, outOfFrame, nofun⟩
      · injection e with e
        exact .inr (.inl ⟨.inr (.inr ⟨sb, eb, rfl⟩), _, e.symm⟩)
  | setbit b v =>
    rcases unlessFault_next h with ⟨c, hc, e⟩ | ⟨hn, e⟩
    · exact .inl ⟨c, e, bitFault_ofCommand _ b c hc, nofun⟩
    · rcases withTarget_next e with e | ⟨o, ho, e⟩
      · exact .inl ⟨_, e, outOfFrame, nofun⟩
      · injection e with e
        exact .inr (.inr (.inl ⟨b, v, o, rfl, (bitFault_eq_none _ b).1 hn, ho, e.symm⟩))
  | rsvchk b d =>
    rcases unlessFault_next h with ⟨c, hc, e⟩ | ⟨_, e⟩
    · exact .inl ⟨c, e, bitFault_ofCommand _ b c hc, nofun⟩
    · rcases withTarget_next e with e | ⟨o, _, e⟩
      · exact .inl ⟨_, e, outOfFrame, nofun⟩
      · injection e with e
        refine .inr (.inr (.inr (.inl ⟨.inl ⟨b, d, rfl⟩, _, e.symm, ?_⟩)))
        unfold renderRsv
        split <;> simp [mkRec_recordOk]
  | boolfld b d lp =>
    rcases unlessFault_next h with ⟨c, hc, e⟩ | ⟨_, e⟩
    · exact .inl ⟨c, e, bitFault_ofCommand _ b c hc, nofun⟩
    · rcases unlessFault_next e with ⟨c, hc, e⟩ | ⟨_, e⟩
      · exact .inl ⟨c, e, pairFault_ofCommand s lp c hc, nofun⟩
      · rcases withTarget_next e with e | ⟨o, _, e⟩
        · exact .inl ⟨_, e, outOfFrame, nofun⟩
        · injection e with e
          refine .inr (.inr (.inr (.inl ⟨.inr (.inl ⟨b, d, lp, rfl⟩), _, e.symm, ?_⟩)))
          simp [renderBool, mkRec_recordOk]
  | codedfld sb eb d tt =>
    rcases unlessFault_next h with ⟨c, hc, e⟩ | ⟨_, e⟩
    · exact .inl ⟨c, e, rangeFault_ofCommand _ sb eb c hc, nofun⟩
    · cases ht : tagTable s.config.layout.raw tt with
      | none =>
        rw [ht] at e
        simp only [commandFault_eq] at e
        injection e with e
        exact .inl ⟨_, e.symm, by simp [FaultCode.ofCommand], nofun⟩
      | some tb =>
        rw [ht] at e
        rcases withTarget_next e with e | ⟨o, _, e⟩
        · exact .inl ⟨_, e, outOfFrame, nofun⟩
        · injection e with e
          refine .inr (.inr (.inr (.inl ⟨.inr (.inr ⟨sb, eb, d, tt, rfl⟩), _, e.symm, ?_⟩)))
          simp [renderCoded, mkRec_recordOk]
  | decode =>
    change execDecode s = _ at h
    rcases execDecode_cases s with ⟨_, e⟩ | ⟨cls, _, e⟩ <;> rw [e] at h
    · cases h
    · injection h with h
      exact .inr (.inr (.inr (.inr ⟨rfl, cls, h.symm⟩)))

end Sys2Proof.Machine
end

