-- ==== Sys2Proof/Laws/Host.lean ====
section
/-! SUPPORT. What the host's operations and turns, and a step of the machine, can do, said once. -/

namespace Sys2Proof.Machine

/-! ### The register map, one lemma per offset -/

/-- Offsets from 0x100 up name no frame byte, whatever FB_SIZE is. -/
theorem target_high (c : Config) (off : BitVec 12) (h : 0x100 ≤ off.toNat) :
    target c off = if off = 0x100 then .flen else if off = 0x104 then .cmd else if off = 0x108 then .res
      else if off = 0x10C then .status else .reserved := by
  have := c.fbSize.ok
  unfold target
  rw [if_neg (by omega)]

theorem target_fb (c : Config) (off : BitVec 12) (h : off.toNat < c.fbSize.bytes) : target c off = .fb off.toNat := by
  unfold target
  rw [if_pos h]

@[simp] theorem target_flen (c : Config) : target c 0x100#12 = .flen := by
  rw [target_high c _ (by decide)]
  rfl

@[simp] theorem target_cmd (c : Config) : target c 0x104#12 = .cmd := by
  rw [target_high c _ (by decide)]
  rfl

@[simp] theorem target_res (c : Config) : target c 0x108#12 = .res := by
  rw [target_high c _ (by decide)]
  rfl

@[simp] theorem target_status (c : Config) : target c 0x10C#12 = .status := by
  rw [target_high c _ (by decide)]
  rfl

/-- A host read: a fault that answers 0, Uninit, or the value. -/
theorem hostRead_cases (r : HostRead) (s : State) :
    (∃ c, readFault s.config r = some c ∧ hostRead r s = .next ((hostFaulted c s).answer 0)) ∨
    (readFault s.config r = none ∧ readValue s r = none ∧ hostRead r s = .fault .uninit) ∨
    (∃ v, readFault s.config r = none ∧ readValue s r = some v ∧ hostRead r s = .next (s.answer v)) := by
  unfold hostRead
  cases hf : readFault s.config r with
  | some c => exact .inl ⟨c, rfl, by simp only [hostFault_eq]⟩
  | none =>
    cases hv : readValue s r with
    | none => exact .inr (.inl ⟨rfl, rfl, rfl⟩)
    | some v => exact .inr (.inr ⟨v, rfl, rfl, rfl⟩)

/-- A host write: a fault, held, or applied. -/
theorem hostWrite_cases (w : HostWrite) (s : State) :
    (∃ c, writeFault s.config w = some c ∧ hostWrite w s = .next (hostFaulted c s)) ∨
    (writeFault s.config w = none ∧ s.busy = true ∧ hostWrite w s = .next { s with held := some w }) ∨
    (writeFault s.config w = none ∧ s.busy = false ∧ hostWrite w s = .next (applyWrite w s)) := by
  unfold hostWrite
  cases hf : writeFault s.config w with
  | some c => exact .inl ⟨c, rfl, by simp only [hostFault_eq]⟩
  | none =>
    cases hb : s.busy with
    | true => exact .inr (.inl ⟨rfl, rfl, by simp⟩)
    | false => exact .inr (.inr ⟨rfl, rfl, by simp⟩)

/-- The host's turn: blocked, the held write, nothing to do, or the next operation. -/
theorem hostTurn_cases (s : State) :
    (∃ w, s.held = some w ∧ s.busy = true ∧ hostTurn s = .next s) ∨
    (∃ w, s.held = some w ∧ s.busy = false ∧ hostTurn s = hostWrite w { s with held := none }) ∨
    (s.held = none ∧ s.hostQueue = [] ∧ hostTurn s = .next s) ∨
    (∃ op ops, s.held = none ∧ s.hostQueue = op :: ops ∧ hostTurn s = hostOp op { s with hostQueue := ops }) := by
  unfold hostTurn
  cases hh : s.held with
  | some w =>
    cases hb : s.busy with
    | true => exact .inl ⟨w, rfl, rfl, by simp⟩
    | false => exact .inr (.inl ⟨w, rfl, rfl, by simp⟩)
  | none =>
    cases hq : s.hostQueue with
    | nil => exact .inr (.inr (.inl ⟨rfl, rfl, rfl⟩))
    | cons op ops => exact .inr (.inr (.inr ⟨op, ops, rfl, rfl, rfl⟩))

/-- What a write that takes effect does, by its target. -/
theorem applyWrite_cases (w : HostWrite) (s : State) :
    (∃ i, target s.config w.off = .fb i ∧ w.width = 8 ∧
      applyWrite w s = s.writeFb i (w.value.extractLsb' 0 8)) ∨
    (∃ i, target s.config w.off = .fb i ∧ w.width ≠ 8 ∧ applyWrite w s = writeWord s i w.value) ∨
    (target s.config w.off = .flen ∧ applyWrite w s = { s with flen := w.value.extractLsb' 0 9 }) ∨
    (target s.config w.off = .cmd ∧ applyWrite w s = { s with cmdq := w.value, phase := .pending }) ∨
    ((target s.config w.off = .res ∨ target s.config w.off = .status ∨ target s.config w.off = .reserved) ∧
      applyWrite w s = s) := by
  unfold applyWrite
  cases ht : target s.config w.off with
  | fb i =>
    by_cases hw : w.width = 8
    · exact .inl ⟨i, rfl, hw, by simp [hw]⟩
    · exact .inr (.inl ⟨i, rfl, hw, by simp [hw]⟩)
  | flen => exact .inr (.inr (.inl ⟨rfl, rfl⟩))
  | cmd => exact .inr (.inr (.inr (.inl ⟨rfl, rfl⟩)))
  | res => exact .inr (.inr (.inr (.inr ⟨.inl rfl, rfl⟩)))
  | status => exact .inr (.inr (.inr (.inr ⟨.inr (.inl rfl), rfl⟩)))
  | reserved => exact .inr (.inr (.inr (.inr ⟨.inr (.inr rfl), rfl⟩)))

/-- The engine's step, by phase and latch. -/
theorem engineStep_cases (s : State) :
    (s.phase = .idle ∧ engineStep s = .next s) ∨
    (∃ i, s.phase = .pending ∧ decodeCmd s.cmdq = .ok i ∧ engineStep s = exec i s) ∨
    (∃ e, s.phase = .pending ∧ decodeCmd s.cmdq = .error e ∧ engineStep s = .next (faulted .illegalCmd s)) ∨
    (s.phase = .walk ∧ engineStep s = walkStep s) := by
  unfold engineStep
  cases hp : s.phase with
  | idle => exact .inl ⟨rfl, rfl⟩
  | pending =>
    cases hd : decodeCmd s.cmdq with
    | ok i => exact .inr (.inl ⟨i, rfl, rfl, rfl⟩)
    | error e => exact .inr (.inr (.inl ⟨e, rfl, rfl, commandFault_eq _ s⟩))
  | walk => exact .inr (.inr (.inr ⟨rfl, rfl⟩))

/-- A step of the machine: a host turn, an engine step or a RESET, of the state with its schedule advanced. -/
theorem step_cases (s : State) :
    ∃ ts, (step s = hostTurn { s with schedule := ts } ∧ s.schedule.head? ≠ some .reset) ∨
      (step s = engineStep { s with schedule := ts } ∧ s.schedule.head? ≠ some .reset) ∨
      (step s = .next (resetAction { s with schedule := ts }) ∧ s.schedule.head? = some .reset) := by
  unfold step takeTurn
  cases hs : s.schedule with
  | nil =>
    have he : { s with schedule := [] } = s := by rw [← hs]
    cases hb : s.busy with
    | true => exact ⟨[], .inr (.inl ⟨by rw [he]; simp, by simp⟩)⟩
    | false => exact ⟨[], .inl ⟨by rw [he]; simp, by simp⟩⟩
  | cons t ts =>
    cases t with
    | host => exact ⟨ts, .inl ⟨rfl, by simp⟩⟩
    | engine => exact ⟨ts, .inr (.inl ⟨rfl, by simp⟩)⟩
    | reset => exact ⟨ts, .inr (.inr ⟨rfl, by simp⟩)⟩

/-- With no turn scheduled, a busy machine's step is the engine's. -/
theorem step_busy (s : State) (hs : s.schedule = []) (hb : s.busy = true) : step s = engineStep s := by
  unfold step takeTurn
  simp [hs, hb]

/-- A run goes on from its first step. -/
theorem run_step (k : Nat) (s t : State) (h : step s = .next t) :
    Host.Core.run Sys2Proof.core (k + 1) s = Host.Core.run Sys2Proof.core k t := by
  have h' : Sys2Proof.core.step s = .next t := h
  simp only [Host.Core.run, h']

end Sys2Proof.Machine
end

