-- ==== Sys2Proof/Laws/Layout.lean ====
section
/-! SUPPORT. What the checks of a layout range over, and the gate of a configuration, said once. -/

namespace Sys2Proof.Machine

/-- A check of every octet's list holds exactly where it holds at each capability octet of each class (R151). -/
theorem everyOctet_iff (p : Params) (L : Layout) (check : Nat → List Descriptor → Bool) :
    everyOctet p L check = true ↔
      ∀ (cls : FrameClass) (i : Nat), p.firstOctet ≤ i → i ≤ p.lastOctet → check i (layoutFields p L cls i) = true := by
  have hp := p.ok.2.1.2
  simp only [everyOctet, octetCount, List.all_cons, List.all_nil, Bool.and_true, Bool.and_eq_true, List.all_eq_true,
    List.mem_range]
  constructor
  · rintro ⟨h0, h1⟩ cls i hf hl
    have back : i - p.firstOctet + p.firstOctet = i := by omega
    cases cls
    · simpa only [back] using h0 (i - p.firstOctet) (by omega)
    · simpa only [back] using h1 (i - p.firstOctet) (by omega)
  · intro h
    exact ⟨fun k hk => h _ _ (by omega) (by omega), fun k hk => h _ _ (by omega) (by omega)⟩

/-- Outside the capability octets there are no descriptors (R150). -/
theorem layoutFields_outside (p : Params) (L : Layout) (cls : FrameClass) (i : Nat)
    (h : i < p.firstOctet ∨ p.lastOctet < i) : layoutFields p L cls i = [] :=
  if_neg (by omega)

/-- A layout is accepted exactly when `layoutOk` holds of it. -/
theorem accept_isSome_iff (p : Params) (L : Layout) :
    (CheckedLayout.accept p L).isSome = true ↔ layoutOk p L = true := by
  unfold CheckedLayout.accept
  split <;> simp_all

end Sys2Proof.Machine
end

