-- ==== Sys2Proof/Laws/PerInstr.lean ====
section
/-! SUPPORT. Facts about every command as syntax, one lemma per constructor. -/

namespace Sys2Proof.Laws

/-- OP of each command (R83). -/
def opcodeOf : Instr → BitVec 4
  | .map _ => 0x1
  | .testbit _ => 0x2
  | .setbit _ _ => 0x3
  | .getfield _ _ => 0x4
  | .rsvchk _ _ => 0x5
  | .boolfld _ _ _ => 0x6
  | .codedfld _ _ _ _ => 0x7
  | .decode => 0x8

/-- The OP field of a packed word. -/
theorem opField_packCmd (op : BitVec 4) (a b d : BitVec 8) (t : BitVec 4) :
    opField (packCmd op a b d t) = op := by
  unfold opField packCmd
  rw [extract_append_high (h := by omega), extract_append_high (h := by omega), extract_append_high (h := by omega),
    extract_append_high (h := by omega)]
  exact extract_whole op

/-- The A field of a packed word. -/
theorem aField_packCmd (op : BitVec 4) (a b d : BitVec 8) (t : BitVec 4) : aField (packCmd op a b d t) = a := by
  unfold aField packCmd
  rw [extract_append_high (h := by omega), extract_append_high (h := by omega), extract_append_high (h := by omega),
    extract_append_low (h := by omega)]
  exact extract_whole a

namespace EncodedOpcode

/-- The word of a command carries its OP in bits 31:28 (R81, R83). -/
def Statement (i : Instr) : Prop := opField (encode i) = opcodeOf i

theorem map (b : BitNum) : Statement (.map b) := opField_packCmd ..
theorem testbit (b : BitNum) : Statement (.testbit b) := opField_packCmd ..
theorem setbit (b : BitNum) (v : BitVec 1) : Statement (.setbit b v) := opField_packCmd ..
theorem getfield (s e : BitNum) : Statement (.getfield s e) := opField_packCmd ..
theorem rsvchk (b : BitNum) (d : Byte) : Statement (.rsvchk b d) := opField_packCmd ..
theorem boolfld (b : BitNum) (d : Byte) (lp : BitVec 4) : Statement (.boolfld b d lp) := opField_packCmd ..
theorem codedfld (s e : BitNum) (d : Byte) (tt : BitVec 4) : Statement (.codedfld s e d tt) := opField_packCmd ..
theorem decode : Statement .decode := opField_packCmd ..

end EncodedOpcode

end Sys2Proof.Laws
end

