-- ==== Sys2Proof/Machine/ReferenceLayout.lean ====
section
/-! DEFINITION. LAYOUT_T30_REF, the spec's partial reference layout (R190 to R199), with its texts: an informative instance
of L from general knowledge, not from the source. No other definition of the model uses it, and no statement may rest on
an entry of it (log 13). It is meant for EXT_FIRST_OCTET = 5 (R190) and the defaults
of R6's other numbers. -/

namespace Sys2Proof.Machine

/-- RSV at one bit; the descriptor id is the bit number (R190). -/
def rsvAt (b : BitNum) : Descriptor := ⟨.rsv, b, b, b, 0⟩
/-- BOOL(lp) at one bit (R190). -/
def boolAt (b : BitNum) (lp : BitVec 4) : Descriptor := ⟨.bool, b, b, b, lp⟩
/-- CODED(tt) at a range (R190). -/
def codedAt (s e : BitNum) (tt : BitVec 4) : Descriptor := ⟨.coded, s, e, s, tt⟩

/-- Entries whose label ids are their indices (R190). -/
def entries (vals : List Byte) : TagTable := vals.zipIdx.map fun p => ⟨p.1, .ofNat 8 p.2⟩

/-- The tag tables TT[0..7] (R191); TT[8..15] are undefined. -/
def t30TagTables : List (Option TagTable) :=
  [
    some (entries [0x0, 0x2, 0x1, 0x3, 0xB]),
    some (entries [0x0, 0x2, 0x3, 0x1, 0xB, 0x9, 0xA, 0x8]),
    some (entries [0, 1, 2]),
    some (entries [0, 1, 2]),
    some (entries [0, 1, 2]),
    some (entries [0, 1, 2]),
    some (entries [0, 1, 2, 3, 4, 5, 6, 7]),
    some (entries [0, 1, 2, 4, 7])
  ]

/-- The label pairs LP[1..4] (R192); the ids of pair p are 2p (yes) and 2p+1 (no) (DESIGN CHOICE, log 13). LP[5..15] are
undefined. -/
def t30LabelPairs : List (Option LabelPair) :=
  [1, 2, 3, 4].map fun p => some ⟨.id (2 * p), .id (2 * p + 1)⟩

/-- Octets 3 to 8, class DIS/DTC (R193 to R198). -/
def t30DisDtc : List (List Descriptor) :=
  [
    [ boolAt 1 0, rsvAt 2, boolAt 3 0, boolAt 4 0, rsvAt 5, boolAt 6 0, boolAt 7 1, rsvAt 8 ],
    [ boolAt 9 0, boolAt 10 0, codedAt 11 14 0, boolAt 15 0, boolAt 16 0 ],
    [ codedAt 17 18 2, codedAt 19 20 4, codedAt 21 23 6, boolAt 24 0 ],
    [ rsvAt 25, boolAt 26 0, boolAt 27 0, rsvAt 28, rsvAt 29, rsvAt 30, boolAt 31 0, boolAt 32 0 ],
    [ boolAt 33 0, boolAt 34 0, boolAt 35 0, boolAt 36 0, boolAt 37 0, boolAt 38 0, boolAt 39 0, boolAt 40 0 ],
    [ boolAt 41 0, boolAt 42 0, boolAt 43 0, boolAt 44 0, boolAt 45 0, boolAt 46 4, boolAt 47 0, boolAt 48 0 ]
  ]

/-- Octets 3 to 8, class DCS (R193 to R198). -/
def t30Dcs : List (List Descriptor) :=
  [
    [ boolAt 1 0, rsvAt 2, boolAt 3 0, boolAt 4 0, rsvAt 5, rsvAt 6, rsvAt 7, rsvAt 8 ],
    [ rsvAt 9, boolAt 10 0, codedAt 11 14 1, boolAt 15 0, boolAt 16 0 ],
    [ codedAt 17 18 3, codedAt 19 20 5, codedAt 21 23 7, boolAt 24 0 ],
    [ rsvAt 25, boolAt 26 0, boolAt 27 0, boolAt 28 2, rsvAt 29, rsvAt 30, boolAt 31 0, boolAt 32 0 ],
    [ rsvAt 33, rsvAt 34, rsvAt 35, boolAt 36 0, boolAt 37 0, boolAt 38 0, boolAt 39 0, boolAt 40 0 ],
    [ boolAt 41 0, boolAt 42 0, boolAt 43 0, boolAt 44 3, rsvAt 45, rsvAt 46, rsvAt 47, boolAt 48 0 ]
  ]

/-- L_T30_TAIL (R199), OPEN: the descriptors of octets 9 to 18 before each octet's extension bit, per class. -/
structure T30Tail where
  disDtc : List (List Descriptor) := []
  dcs : List (List Descriptor) := []
  deriving DecidableEq, Repr

/-- Octets 9 to 18: the tail's descriptors, then BOOL(0) "Extended field" at bit 8(i-3)+8 (R199). -/
def t30TailOctets (tail : List (List Descriptor)) : List (List Descriptor) :=
  (List.range 10).map fun k => tail.getD k [] ++ [boolAt (.ofNat 8 (octetHi {} (k + 9))) 0]

/-- LAYOUT_T30_REF with a tail; with no tail it is the layout of R190 to R199. -/
def t30Ref (tail : T30Tail) : Layout where
  disDtc := t30DisDtc ++ t30TailOctets tail.disDtc
  dcs := t30Dcs ++ t30TailOctets tail.dcs
  tagTables := t30TagTables
  labelPairs := t30LabelPairs

/-- Descriptions of the DIS/DTC descriptors, by bit number (R193 to R198). -/
def t30DisDtcTexts : List (Nat × String) :=
  [
    (1, "Store and forward Internet fax - simple mode (ITU-T T.37)"),
    (3, "Real-time Internet fax (ITU-T T.38)"),
    (4, "3G mobile network"),
    (6, "V.8 capabilities"),
    (7, "Preferred octets"),
    (9, "Ready to transmit a fax document (polling)"),
    (10, "Can receive fax"),
    (11, "Supported data signalling rates"),
    (15, "R8x7.7 lines/mm and/or 200x200 pels/25.4 mm"),
    (16, "2-D coding"),
    (17, "Recording width"),
    (19, "Recording length"),
    (21, "Minimum scan line time"),
    (24, "Extended field"),
    (26, "Uncompressed mode"),
    (27, "Error correction mode"),
    (31, "T.6 coding"),
    (32, "Extended field"),
    (33, "Field not valid"),
    (34, "Multiple selective polling"),
    (35, "Polled subaddress"),
    (36, "T.43 coding"),
    (37, "Plane interleave"),
    (38, "Voice coding with 32 kbit/s ADPCM (ITU-T G.726)"),
    (39, "Reserved for the use of extended voice coding schemes"),
    (40, "Extended field"),
    (41, "R8x15.4 lines/mm"),
    (42, "300x300 pels/25.4 mm"),
    (43, "R16x15.4 lines/mm and/or 400x400 pels/25.4 mm"),
    (44, "Inch based resolution preferred"),
    (45, "Metric based resolution preferred"),
    (46, "Minimum scan line time for higher resolutions"),
    (47, "Selective polling"),
    (48, "Extended field")
  ]

/-- Descriptions of the DCS descriptors, by bit number (R193 to R198). -/
def t30DcsTexts : List (Nat × String) :=
  [
    (1, "Store and forward Internet fax - simple mode (ITU-T T.37)"),
    (3, "Real-time Internet fax (ITU-T T.38)"),
    (4, "3G mobile network"),
    (10, "Receive fax"),
    (11, "Selected data signalling rate"),
    (15, "R8x7.7 lines/mm and/or 200x200 pels/25.4 mm"),
    (16, "2-D coding"),
    (17, "Recording width"),
    (19, "Recording length"),
    (21, "Minimum scan line time"),
    (24, "Extended field"),
    (26, "Uncompressed mode"),
    (27, "Error correction mode"),
    (28, "Frame size"),
    (31, "T.6 coding"),
    (32, "Extended field"),
    (36, "T.43 coding"),
    (37, "Plane interleave"),
    (38, "Voice coding with 32 kbit/s ADPCM (ITU-T G.726)"),
    (39, "Reserved for the use of extended voice coding schemes"),
    (40, "Extended field"),
    (41, "R8x15.4 lines/mm"),
    (42, "300x300 pels/25.4 mm"),
    (43, "R16x15.4 lines/mm and/or 400x400 pels/25.4 mm"),
    (44, "Resolution type selection"),
    (48, "Extended field")
  ]

/-- The text of a descriptor id, keyed by (CLS, desc) (R190); bits 56, 64, ..., 128 are "Extended field" (R199). Reserved
bits have none. -/
def t30DescText (cls : FrameClass) (desc : Byte) : Option String :=
  let texts := match cls with
    | .disDtc => t30DisDtcTexts
    | .dcs => t30DcsTexts
  if 56 ≤ desc.toNat ∧ desc.toNat ≤ 128 ∧ desc.toNat % 8 = 0 then some "Extended field"
  else (texts.find? fun p => p.1 = desc.toNat).map (·.2)

/-- The labels of the tag tables, by entry index (R191). -/
def t30TagTexts : List (List String) :=
  [
    [ "V.27 ter fall-back mode", "V.27 ter", "V.29", "V.27 ter and V.29", "V.27 ter, V.29 and V.17" ],
    [ "V.27 ter 2400 bit/s", "V.27 ter 4800 bit/s", "V.29 7200 bit/s", "V.29 9600 bit/s", "V.17 7200 bit/s",
      "V.17 9600 bit/s", "V.17 12000 bit/s", "V.17 14400 bit/s" ],
    [ "215 mm", "215 mm and 255 mm", "215 mm, 255 mm and 303 mm" ],
    [ "215 mm", "255 mm", "303 mm" ],
    [ "A4 (297 mm)", "A4 (297 mm) and B4 (364 mm)", "Unlimited" ],
    [ "A4 (297 mm)", "B4 (364 mm)", "Unlimited" ],
    [ "20 ms at 3.85 l/mm; T7.7 = T3.85", "5 ms at 3.85 l/mm; T7.7 = T3.85", "10 ms at 3.85 l/mm; T7.7 = T3.85",
      "20 ms at 3.85 l/mm; T7.7 = 1/2 T3.85", "40 ms at 3.85 l/mm; T7.7 = T3.85",
      "40 ms at 3.85 l/mm; T7.7 = 1/2 T3.85", "10 ms at 3.85 l/mm; T7.7 = 1/2 T3.85",
      "0 ms at 3.85 l/mm; T7.7 = T3.85" ],
    [ "20 ms", "5 ms", "10 ms", "40 ms", "0 ms" ]
  ]

/-- The label of entry `k` of TT[t] (R191). -/
def t30TagText (t : BitVec 4) (k : Byte) : Option String := (t30TagTexts.getD t.toNat [])[k.toNat]?

/-- The texts of the label pairs' ids: yes and no of LP[1] to LP[4] (R192). -/
def t30PairTexts : List String :=
  [ "64 octets", "256 octets", "64 octets", "256 octets", "Inch based", "Metric based",
    "T15.4 = 1/2 T7.7", "T15.4 = T7.7" ]

/-- The text of a label pair's label (R192). -/
def t30LabelText : Label → Option String
  | .set => some "Set"
  | .notSet => some "Not set"
  | .id n => if n.toNat < 2 then none else t30PairTexts[n.toNat - 2]?

end Sys2Proof.Machine
end

