-- ==== Sys2Proof/Tests/Slice0.lean ====
section
/-! SUPPORT. The model's own tests: words decoded as R83 and R87 print them, terms and layouts the checks refuse, one or
two steps of each command with the values of 95_test_vectors.md, and one witness for the hypotheses of each statement. -/

namespace Sys2Proof.Tests

open Sys2Proof.Machine

/-! ### Helpers -/

/-- The test layout TL of 95_test_vectors.md, section 1.1. -/
def testLayout : Layout :=
  let tail := (List.range 15).map fun k => [⟨.bool, .ofNat 8 (8 * k + 16), .ofNat 8 (8 * k + 16), 8, 0⟩]
  { disDtc := [⟨.bool, 1, 1, 1, 0⟩, ⟨.rsv, 2, 2, 2, 0⟩, ⟨.coded, 3, 5, 3, 0⟩, ⟨.bool, 8, 8, 8, 0⟩] :: tail
    dcs := [⟨.rsv, 1, 1, 1, 0⟩, ⟨.rsv, 2, 2, 2, 0⟩, ⟨.coded, 3, 5, 4, 1⟩, ⟨.bool, 8, 8, 8, 0⟩] :: tail
    tagTables := [some [⟨0, 10⟩, ⟨1, 11⟩, ⟨1, 12⟩, ⟨5, 13⟩], some [⟨7, 20⟩]]
    labelPairs := [some ⟨.id 2, .id 3⟩] }

theorem test_testLayout_ok : layoutOk {} testLayout = true := by decide

/-- The default parameters with the test layout. -/
def testConfig : Config := { layout := ⟨testLayout, test_testLayout_ok⟩ }

/-- R6's numbers at the largest BIT_MAX that OI's 5 bits allow. -/
def widest : Params := { bitMax := 224, lastOctet := 30, oiEnd := 31 }

/-- R6's numbers with BIT_MIN = 2, one capability octet at index 5, and one slot of each kind, its table empty. -/
def narrow : Params :=
  { bitMin := 2, bitMax := 8, firstOctet := 5, lastOctet := 5, oiEnd := 6, nTT := 1, ttMax := 0, nLP := 1 }

/-- The reset state with the empty layout under other parameters. -/
def resetWith (p : Params) : State := State.resetUnder { params := p, layout := {} }

/-- The reset state with FLEN and some frame bytes written. -/
def frame (flen : Nat) (bytes : List (Nat × Nat)) : State :=
  { State.resetUnder testConfig with
    flen := .ofNat 9 flen, fb := bytes.foldl (fun m p => m.write p.1 (.ofNat 8 p.2)) [] }

/-- The command word w is latched. -/
def latched (w : Nat) (s : State) : State := s.withFetchWord 32 w

/-- DV4's frame, latched for a DECODE. -/
def dv4 : State := latched 0x80000000 (frame 4 [(2, 0x80), (3, 0)])

/-- A walk at octet i. -/
def walking (i : Nat) (s : State) : State := { s with phase := .walk, oi := .ofNat 5 i }

/-- What a projection of the next state is, if there is one. -/
def after {α : Type} (r : Result) (f : State → α) : Option α :=
  match r with
  | .next t => some (f t)
  | _ => none

/-- The machine has stopped at an unwritten byte. -/
def stuck (r : Result) : Bool :=
  match r with
  | .fault .uninit => true
  | _ => false

/-! ### Decoding: words of 95_test_vectors.md, section 3.1, and of each field at its largest value -/

theorem test_decode_map : decodeCmd 0x10100000 = .ok (.map 1) := by decide
theorem test_decode_map_t : decodeCmd 0x10100001 = .error .sbzNotZero := by decide
theorem test_decode_map_b : decodeCmd 0x10101000 = .error .sbzNotZero := by decide
theorem test_decode_testbit : decodeCmd 0x20B00000 = .ok (.testbit 11) := by decide
theorem test_decode_setbit : decodeCmd 0x30800001 = .ok (.setbit 8 1) := by decide
theorem test_decode_setbit_sbz : decodeCmd 0x30800002 = .error .sbzNotZero := by decide
theorem test_decode_getfield : decodeCmd 0x40B0E000 = .ok (.getfield 11 14) := by decide
theorem test_decode_rsvchk : decodeCmd 0x50200020 = .ok (.rsvchk 2 2) := by decide
theorem test_decode_rsvchk_t : decodeCmd 0x50200021 = .error .sbzNotZero := by decide
theorem test_decode_boolfld : decodeCmd 0x60100011 = .ok (.boolfld 1 1 1) := by decide
theorem test_decode_codedfld : decodeCmd 0x70305041 = .ok (.codedfld 3 5 4 1) := by decide
theorem test_decode_codedfld_max : decodeCmd 0x7FFFFFFF = .ok (.codedfld 255 255 255 15) := by decide
theorem test_decode_decode : decodeCmd 0x80000000 = .ok .decode := by decide
theorem test_decode_decode_sbz : decodeCmd 0x88000000 = .error .sbzNotZero := by decide
theorem test_decode_zero : decodeCmd 0x00000000 = .error .reservedOpcode := by decide
theorem test_decode_reserved : decodeCmd 0x90000000 = .error .reservedOpcode := by decide
theorem test_tableWord : decodeTableWord 32 0x80000000 = some .decode := by decide

/-! ### Well-formedness: the assembler's checks (R88, R89) and the layout's (R151) -/

theorem test_wf_map : (Source.map 256).wellFormed {} = false := by decide
theorem test_wf_testbit : (Source.testbit 256).wellFormed {} = false := by decide
theorem test_wf_setbit_b : (Source.setbit 256 1).wellFormed {} = false := by decide
theorem test_wf_setbit_v : (Source.setbit 8 2).wellFormed {} = false := by decide
theorem test_wf_getfield_s : (Source.getfield 256 8).wellFormed {} = false := by decide
theorem test_wf_getfield_e : (Source.getfield 1 256).wellFormed {} = false := by decide
theorem test_wf_rsvchk_b : (Source.rsvchk 256 0).wellFormed {} = false := by decide
theorem test_wf_rsvchk_d : (Source.rsvchk 1 256).wellFormed {} = false := by decide
theorem test_wf_boolfld_b : (Source.boolfld 256 0 0).wellFormed {} = false := by decide
theorem test_wf_boolfld_d : (Source.boolfld 1 256 0).wellFormed {} = false := by decide
theorem test_wf_boolfld_lp : (Source.boolfld 1 0 16).wellFormed {} = false := by decide
theorem test_wf_codedfld_s : (Source.codedfld 256 5 3 0).wellFormed {} = false := by decide
theorem test_wf_codedfld_e : (Source.codedfld 3 256 3 0).wellFormed {} = false := by decide
theorem test_wf_codedfld_d : (Source.codedfld 3 5 256 0).wellFormed {} = false := by decide
theorem test_wf_codedfld_tt : (Source.codedfld 3 5 3 16).wellFormed {} = false := by decide
theorem test_wf_clrbit : (Source.clrbit 256).wellFormed {} = false := by decide
theorem test_wf_getbit : (Source.getbit 256).wellFormed {} = false := by decide
theorem test_wf_boolfldDefault_b : (Source.boolfldDefault 256 0).wellFormed {} = false := by decide
theorem test_wf_boolfldDefault_d : (Source.boolfldDefault 1 256).wellFormed {} = false := by decide
theorem test_wf_getoctet_low : (Source.getoctet 2).wellFormed {} = false := by decide
theorem test_wf_getoctet_high : (Source.getoctet 19).wellFormed {} = false := by decide
/-- "It does not refuse a bit number outside 1..128" (R88). -/
theorem test_wf_bit_range : (Source.map 0).assemble {} = some 0x10000000 := by decide
theorem test_assemble_getoctet : (Source.getoctet 4).assemble {} = some 0x40910000 := by decide
theorem test_text : (Source.boolfld 1 1 0).text = "boolfld 1, 1, 0" := by decide

theorem test_layout_in_octet : layoutOk {} { disDtc := [[⟨.bool, 9, 9, 0, 0⟩]] } = false := by decide
theorem test_layout_order : layoutOk {} { disDtc := [[⟨.bool, 2, 2, 0, 0⟩, ⟨.bool, 2, 2, 0, 0⟩]] } = false := by decide
theorem test_layout_one_bit : layoutOk {} { dcs := [[⟨.rsv, 1, 2, 0, 0⟩]] } = false := by decide
theorem test_layout_width : layoutOk {} { disDtc := [[⟨.coded, 5, 3, 0, 0⟩]], tagTables := [some []] } = false := by decide
theorem test_layout_pair : layoutOk {} { disDtc := [[⟨.bool, 1, 1, 0, 1⟩]] } = false := by decide
theorem test_layout_table : layoutOk {} { disDtc := [[⟨.coded, 1, 2, 0, 0⟩]] } = false := by decide
theorem test_layout_rsv_aux : layoutOk {} { disDtc := [[⟨.rsv, 1, 1, 0, 1⟩]] } = false := by decide
set_option maxRecDepth 4000 in
theorem test_layout_entries : layoutOk {} { tagTables := [some (List.replicate 256 ⟨0, 0⟩)] } = false := by decide
theorem test_layout_shape : layoutOk {} { dcs := List.replicate 17 [] } = false := by decide
theorem test_reference_layout : layoutOk {} (t30Ref {}) = true := by decide

/-! ### One step of each command: vectors of 95_test_vectors.md, sections 3.2 to 3.6 -/

theorem test_map : after (step (latched 0x16400000 (frame 0 []))) (·.res) = some 0x30F := by decide
theorem test_map_range : after (step (latched 0x18100000 (frame 0 []))) statusWord = some 0x14028 := by decide
theorem test_testbit : after (step (latched 0x28000000 (frame 19 [(18, 0x80)]))) (·.res) = some 1 := by decide
theorem test_testbit_absent :
    after (step (latched 0x28000000 (frame 18 [(17, 0xFF)]))) statusWord = some 0x34068 := by decide
theorem test_setbit : after (step (latched 0x30800001 (frame 4 [(3, 0)]))) (·.fb) = some [(3, 0x80)] := by decide
theorem test_setbit_clear :
    after (step (latched 0x30100000 (frame 4 [(3, 0xFF)]))) (·.fb) = some [(3, 0xFE)] := by decide
theorem test_getfield : after (step (latched 0x40204000 (frame 4 [(3, 0xA5)]))) (·.res) = some 2 := by decide
theorem test_getfield_span :
    after (step (latched 0x40809000 (frame 5 [(3, 0xFF), (4, 0xFF)]))) statusWord = some 0x24048 := by decide
theorem test_rsvchk :
    after (step (latched 0x50200020 (frame 4 [(3, 2)]))) (·.out) = some [0x1020202010003000] := by decide
theorem test_rsvchk_silent : after (step (latched 0x50200020 (frame 4 [(3, 0xFD)]))) (·.out) = some [] := by decide
theorem test_boolfld :
    after (step (latched 0x60100011 (frame 4 [(3, 0)]))) (·.out) = some [0x2010101000003100] := by decide
theorem test_boolfld_undefined : after (step (latched 0x60100012 (frame 4 [(3, 1)]))) statusWord = some 0x2C058 := by
  decide
theorem test_codedfld_first :
    after (step (latched 0x70305030 (frame 4 [(3, 4)]))) (·.out) = some [0x3030305010103000] := by decide
theorem test_codedfld_invalid :
    after (step (latched 0x70305030 (frame 4 [(3, 8)]))) (·.out) = some [0x303030502FF03000] := by decide
/-- DV6: TYPE_MASK removes bit 0 of 0x83. -/
theorem test_decode_class : after (step (latched 0x80000000 (frame 5 [(2, 0x83)]))) (·.cls) = some .dcs := by decide
/-- DV6, octet 3. -/
theorem test_walk : after (step (walking 3 { frame 5 [(2, 0x83), (3, 0x9D)] with cls := .dcs })) (·.out) =
    some [0x1010101010003001, 0x3040305070003101, 0x2080808010003001] := by decide
theorem test_stuck : stuck (step (latched 0x20100000 (frame 4 []))) = true := by decide
theorem test_display : displayPattern 0x303030502FF03000 = some ['.', '.', '.', '0', '1', '0', '.', '.'] := by decide

/-! ### The parameters of R6: the defaults its table shows, and other values -/

/-- The defaults are those of R6's table. -/
theorem test_default_parameters :
    Config.standard.params.bitMin = 1 ∧ Config.standard.params.bitMax = 128 ∧ Config.standard.params.firstOctet = 3 ∧
    Config.standard.params.lastOctet = 18 ∧ Config.standard.params.oiEnd = 19 ∧ Config.standard.params.nTT = 16 ∧
    Config.standard.params.ttMax = 255 ∧ Config.standard.params.nLP = 16 ∧ Config.standard.fbSize.bytes = 256 ∧
    Config.standard.extFirst.index = 3 ∧ Config.standard.typeMask = 0xFE ∧ Config.standard.dcsType = 0x82 ∧
    decodeSteps Config.standard.params = 18 := by decide

/-- R110 at b = 224 with BIT_MAX = 224: octet 30, bit 7; with the default BIT_MAX the same command faults. -/
theorem test_map_widest : after (step (latched 0x1E000000 (resetWith widest))) (·.res) = some 0x71E ∧
    after (step (latched 0x1E000000 (resetWith {}))) statusWord = some 0x14028 := by decide
/-- BIT_MIN = 2: bit 1 is out of range, bit 2 is bit 1 of FIRST_OCTET = 5. -/
theorem test_map_narrow : after (step (latched 0x10100000 (resetWith narrow))) statusWord = some 0x14028 ∧
    after (step (latched 0x10200000 (resetWith narrow))) (·.res) = some 0x105 := by decide
/-- R158 at OI_END = 6: the BEYOND record's OCTET is OI_END. -/
theorem test_beyond_narrow : after (step (walking 6 (resetWith narrow))) (·.out) = some [0x9000000000006000] := by
  decide
/-- R155: OI <- FIRST_OCTET. -/
theorem test_decode_narrow : after (step (latched 0x80000000 (resetWith narrow))) (·.oi) = some 5 := by decide
theorem test_layout_narrow_slots : layoutOk narrow { tagTables := [none, none] } = false ∧
    layoutOk narrow { labelPairs := [none] } = false ∧ layoutOk narrow { dcs := [[], []] } = false := by decide
theorem test_layout_entries_narrow : layoutOk narrow { tagTables := [some [⟨0, 0⟩]] } = false ∧
    layoutOk narrow { tagTables := [some []] } = true := by decide
theorem test_wf_getoctet_narrow : (Source.getoctet 4).wellFormed narrow = false ∧
    (Source.getoctet 5).assemble narrow = some 0x40108000 := by decide

/-! ### Witnesses: states and operands that meet the hypotheses of each statement together -/

theorem witness_PendingStepRunsTheDecodedCommand :
    (latched 0x10C00000 (frame 0 [])).phase = .pending ∧
    decodeCmd (latched 0x10C00000 (frame 0 [])).cmdq = .ok (.map 12) ∧
    (latched 0x10C00000 (frame 0 [])).schedule = [] ∧
    ({ latched 0x10C00000 (frame 0 []) with schedule := [.engine, .host] } : State).schedule = .engine :: [.host] := by
  decide

theorem witness_StepTakesTheScheduledTurn :
    ({ dv4 with schedule := [.engine, .host] } : State).schedule = .engine :: [.host] ∧
    ({ dv4 with schedule := [.host] } : State).schedule = .host :: [] ∧
    ({ dv4 with schedule := [.reset] } : State).schedule = .reset :: [] ∧
    (dv4.schedule = [] ∧ dv4.busy = true) ∧ ((frame 4 []).schedule = [] ∧ (frame 4 []).busy = false) := by decide

theorem witness_DecodedWordIsTheCommandsWord : decodeCmd 0x7FFFFFFF = .ok (.codedfld 255 255 255 15) := by decide

theorem witness_IllegalWordsRaiseIllegalCmd :
    (latched 0 (frame 0 [])).phase = .pending ∧
    opField (latched 0 (frame 0 [])).cmdq = 0 ∧ 9 ≤ (opField (latched 0x90000000 (frame 0 [])).cmdq).toNat ∧
    9 ≤ (opField (latched 0xFFFFFFFF (frame 0 [])).cmdq).toNat ∧
    (∃ r ∈ opcodeMap, opField r.matchBits = opField (latched 0x10000001 (frame 0 [])).cmdq ∧
      (latched 0x10000001 (frame 0 [])).cmdq &&& r.maskBits &&& 0x0FFFFFFF ≠ 0) ∧
    (∃ r ∈ opcodeMap, opField r.matchBits = opField (latched 0x88000000 (frame 0 [])).cmdq ∧
      (latched 0x88000000 (frame 0 [])).cmdq &&& r.maskBits &&& 0x0FFFFFFF ≠ 0) := by decide

theorem witness_PseudoInstructionsExpand :
    (({} : Params).firstOctet ≤ 3 ∧ 3 ≤ ({} : Params).lastOctet) ∧ (narrow.firstOctet ≤ 5 ∧ 5 ≤ narrow.lastOctet) ∧
    (2 < ({} : Params).firstOctet ∨ ({} : Params).lastOctet < 2) ∧ (6 < narrow.firstOctet ∨ narrow.lastOctet < 6) ∧
    (3 ≤ 3 ∧ 3 ≤ 18) ∧ (3 ≤ 18 ∧ 18 ≤ 18) ∧
    ∃ t u : State, exec (.getfield 128 128) (frame 19 [(18, 0x80)]) = .next t ∧
      exec (.testbit 128) (frame 19 [(18, 0x80)]) = .next u ∧ t.err = false ∧ u.err = false :=
  ⟨by decide, by decide, by decide, by decide, by decide, by decide, _, _, rfl, rfl, by decide, by decide⟩

theorem witness_BitNumbersMapToOctetAndBit :
    legalBit {} 1 ∧ legalBit {} 128 ∧ legalBit widest 224 ∧ legalBit narrow 7 ∧
    1 ≤ (1 : BitNum).toNat ∧ (128 : BitNum).toNat ≤ 128 := by decide

theorem witness_BitMappingIsABijection :
    (legalBit {} 128 ∧ legalBit {} 128 ∧ octetOf {} 128 = octetOf {} 128 ∧ bitOf 128 = bitOf 128) ∧
    (legalBit widest 224 ∧ widest.firstOctet ≤ 30 ∧ 7 ≤ 7 ∧
      (224 : BitNum).toNat = 8 * (30 - widest.firstOctet) + 7 + 1) ∧
    (legalBit narrow 7 ∧ narrow.firstOctet ≤ 5 ∧ 6 ≤ 7 ∧ (7 : BitNum).toNat = 8 * (5 - narrow.firstOctet) + 6 + 1) ∧
    (3 ≤ 3 ∧ 3 ≤ 18 ∧ 0 ≤ 7) ∧ (3 ≤ 18 ∧ 18 ≤ 18 ∧ 7 ≤ 7) ∧
    (1 ≤ (1 : BitNum).toNat ∧ (1 : BitNum).toNat ≤ 128 ∧ 1 ≤ 1 ∧ 1 ≤ 16) ∧
    (1 ≤ (128 : BitNum).toNat ∧ (128 : BitNum).toNat ≤ 128 ∧ 1 ≤ 16 ∧ 16 ≤ 16) := by decide

theorem witness_FieldValueIsTheRangesBits :
    legalRange {} 1 8 ∧ legalRange {} 128 128 ∧ 7 < (8 : BitNum).toNat - (1 : BitNum).toNat + 1 ∧
    (128 : BitNum).toNat - (128 : BitNum).toNat + 1 ≤ 1 := by decide

theorem witness_MapCompletes : legalBit {} 1 ∧ legalBit {} 128 := by decide

theorem witness_TestbitCompletes :
    (legalBit {} 1 ∧ octetHolds (frame 4 [(3, 1)]) (octetIndex {} 1) 1) ∧
    (legalBit {} 128 ∧ octetHolds (frame 19 [(18, 0x80)]) (octetIndex {} 128) 0x80) := by decide

theorem witness_SetbitCompletes :
    (legalBit {} 1 ∧ octetHolds (frame 4 [(3, 1)]) (octetOf {} 1).toNat 1) ∧
    (legalBit {} 128 ∧ octetHolds (frame 19 [(18, 0x80)]) (octetOf {} 128).toNat 0x80) := by decide

theorem witness_GetfieldCompletes :
    (legalRange {} 1 8 ∧ octetHolds (frame 4 [(3, 0xA5)]) (octetIndex {} 1) 0xA5) ∧
    (legalRange {} 128 128 ∧ octetHolds (frame 19 [(18, 0x80)]) (octetIndex {} 128) 0x80) := by decide

theorem witness_SetThenTestGivesTheValue :
    legalBit {} 128 ∧ octetHolds (frame 19 [(18, 0)]) (octetOf {} 128).toNat 0 := by decide

theorem witness_CommandsWriteOnlyTheirState :
    (∃ t, exec (.setbit 8 1) (frame 4 [(3, 0)]) = .next t) ∧ (∃ t, exec (.map 12) (frame 0 []) = .next t) ∧
    (∃ t, exec .decode (frame 0 []) = .next t) ∧ (∃ t, exec (.rsvchk 2 2) (frame 4 [(3, 2)]) = .next t) ∧
    (Instr.decode ≠ .map 1 ∧ Instr.decode ≠ .testbit 1) ∧ Instr.map 1 ≠ .getfield 1 1 ∧ Instr.map 1 ≠ .rsvchk 1 0 ∧
    Instr.map 1 ≠ .boolfld 1 0 0 ∧ Instr.map 1 ≠ .codedfld 1 1 0 0 ∧ Instr.map 1 ≠ .decode :=
  ⟨⟨_, rfl⟩, ⟨_, rfl⟩, ⟨_, rfl⟩, ⟨_, rfl⟩, by decide, by decide, by decide, by decide, by decide, by decide⟩

/-- n entries of value 0, then one of value 1. -/
def tallTable (n : Nat) : TagTable := List.replicate n ⟨0, 10⟩ ++ [⟨1, 11⟩]

theorem tallTable_length (n : Nat) : (tallTable n).length = n + 1 := by simp [tallTable]

theorem tallTable_last (n : Nat) (hk : n < (tallTable n).length) : ((tallTable n)[n]'hk).val = 1 := by simp [tallTable]

theorem tallTable_before (n j : Nat) (hk : n < (tallTable n).length) (hj : j < n) :
    ((tallTable n)[j]'(by omega)).val ≠ 1 := by simp [tallTable, hj]

/-- The last entry of a table of 255, the largest there is, is a first match; and there are values that no entry has. -/
theorem witness_TagLookupFindsTheFirstMatch :
    (∃ n k, n = 254 ∧ k = n ∧ (tallTable n).length ≤ 255 ∧ ∃ hk : k < (tallTable n).length,
      ((tallTable n)[k]'hk).val = 1 ∧ ∀ j, (hj : j < k) → ((tallTable n)[j]'(by omega)).val ≠ 1) ∧
    (∀ e ∈ ([] : TagTable), e.val ≠ 0) ∧ ∀ e ∈ ([⟨0, 10⟩, ⟨1, 11⟩] : TagTable), e.val ≠ 2 := by
  refine ⟨?_, by decide, by decide⟩
  obtain ⟨n, hn⟩ : ∃ n, n = 254 := ⟨_, rfl⟩
  have hk : n < (tallTable n).length := by rw [tallTable_length]; omega
  exact ⟨n, n, hn, rfl, by rw [tallTable_length]; omega, hk, tallTable_last n hk, fun j hj => tallTable_before n j hk hj⟩

theorem witness_FieldsRenderByKind :
    ((⟨.rsv, 128, 128, 2, 0⟩ : Descriptor).kind = .rsv ∧ legalBit {} 128) ∧
    ((⟨.bool, 1, 1, 1, 0⟩ : Descriptor).kind = .bool ∧ legalBit {} 1) ∧
    ((⟨.coded, 121, 128, 3, 1⟩ : Descriptor).kind = .coded ∧ legalRange {} 121 128 ∧
      tagTable testLayout 1 = some [⟨7, 20⟩]) := by decide

theorem witness_RsvchkCompletes :
    (legalBit {} 1 ∧ octetHolds (frame 4 [(3, 1)]) (octetIndex {} 1) 1) ∧
    (legalBit {} 128 ∧ octetHolds (frame 19 [(18, 0)]) (octetIndex {} 128) 0) := by decide

theorem witness_BoolfldCompletes :
    (legalBit {} 1 ∧ (labelPair (frame 4 [(3, 1)]).config.layout.raw 0).isSome = true ∧
      octetHolds (frame 4 [(3, 1)]) (octetIndex {} 1) 1) ∧
    (legalBit {} 128 ∧ (labelPair (frame 19 [(18, 0)]).config.layout.raw 1).isSome = true ∧
      octetHolds (frame 19 [(18, 0)]) (octetIndex {} 128) 0) := by decide

theorem witness_CodedfldCompletes :
    legalRange {} 121 128 ∧ tagTable (frame 19 [(18, 0xFF)]).config.layout.raw 1 = some [⟨7, 20⟩] ∧
    octetHolds (frame 19 [(18, 0xFF)]) (octetIndex {} 121) 0xFF ∧
    (0xFF : Byte) =
      .ofNat 8 ((0xFF : Byte).toNat / 2 ^ bitPosition 121 % 2 ^ ((128 : BitNum).toNat - (121 : BitNum).toNat + 1)) := by
  decide

theorem witness_DefaultPairIsAlwaysDefined :
    (1 : BitVec 4) ≠ 0 ∧ labelPair testLayout 1 = some ⟨.id 2, .id 3⟩ := by decide

theorem witness_DisplayPatternRunsHighToLow :
    legalRange {} 1 8 ∧ legalRange {} 128 128 ∧ 0 < 8 ∧ 7 < 8 ∧
    (RecordKind.rsv = .rsv ∨ RecordKind.rsv = .bool ∨ RecordKind.rsv = .coded) ∧
    (RecordKind.beyond = .short ∨ RecordKind.beyond = .beyond) := by decide

/-- A layout that is accepted, and the octets and fields that the statement's inner hypotheses range over. -/
theorem witness_OnlyWellFormedLayoutsAreAccepted :
    (CheckedLayout.accept {} testLayout).isSome = true ∧
    (⟨.bool, 1, 1, 1, 0⟩ : Descriptor) ∈ layoutFields {} testLayout .disDtc 3 ∧
    (⟨.rsv, 1, 1, 1, 0⟩ : Descriptor) ∈ layoutFields {} testLayout .dcs 3 ∧
    (⟨.coded, 3, 5, 4, 1⟩ : Descriptor) ∈ layoutFields {} testLayout .dcs 3 ∧
    (⟨.bool, 128, 128, 8, 0⟩ : Descriptor) ∈ layoutFields {} testLayout .dcs 18 ∧
    some [⟨7, 20⟩] ∈ testLayout.tagTables := by decide

theorem witness_CommandFaultsFollowThePriority_illegal :
    (latched 0x10000001 (frame 0 [])).phase = .pending ∧
    decodeCmd (latched 0x10000001 (frame 0 [])).cmdq = .error .sbzNotZero := by decide

/-- The examples of R217 and the vectors BV4, BV18, RV11, each at its own code. -/
theorem witness_CommandFaultsFollowThePriority_reports :
    reports (.getfield 0 200) (frame 4 []) .bitRange ∧ reports (.map 129) (frame 4 []) .bitRange ∧
    reports (.getfield 12 9) (frame 4 []) .fieldOrder ∧ reports (.getfield 8 9) (frame 4 []) .fieldSpan ∧
    reports (.codedfld 3 5 1 9) (frame 3 []) .badTable ∧ reports (.testbit 128) (frame 18 []) .outOfFrame := by
  refine ⟨⟨by decide, ?_⟩, ⟨by decide, ?_⟩, ⟨by decide, ?_⟩, ⟨by decide, ?_⟩, ⟨by decide, ?_⟩, ⟨by decide, ?_⟩⟩ <;>
    intro c <;> cases c <;> decide

theorem witness_CommandFaultsFollowThePriority_completes :
    (∀ c, faultApplies (.testbit 1) (frame 4 []) c = false) ∧ byteNeeded (.testbit 1) (frame 4 []) = some 3 ∧
    (frame 4 []).readFb 3 = none ∧ (∀ c, faultApplies (.testbit 1) (frame 4 [(3, 0)]) c = false) ∧
    ((frame 4 [(3, 0)]).readFb 3).isSome = true ∧ byteNeeded .decode (frame 3 []) = some 2 ∧
    byteNeeded .decode (frame 2 []) = none := by
  refine ⟨?_, by decide, by decide, ?_, by decide, by decide, by decide⟩ <;> intro c <;> cases c <;> decide

/-- A state whose first fault was BUS. -/
def busFaulted : State := { frame 4 [(3, 0)] with fault := true, fcode := .bus }

theorem witness_FirstFaultIsSticky :
    (∃ t, step (latched 0x10000000 busFaulted) = .next t ∧
      (latched 0x10000000 busFaulted).schedule.head? ≠ some .reset ∧ (latched 0x10000000 busFaulted).fault = true) ∧
    (∃ t, step (latched 0x10000000 (frame 0 [])) = .next t ∧ (latched 0x10000000 (frame 0 [])).fault = false ∧
      t.fault = true) ∧
    (∃ t, step { busFaulted with schedule := [.reset] } = .next t ∧
      ({ busFaulted with schedule := [.reset] } : State).schedule.head? = some .reset) :=
  ⟨⟨_, rfl, by decide, by decide⟩, ⟨_, rfl, by decide, by decide⟩, ⟨_, rfl, by decide⟩⟩

theorem witness_UnwrittenBytesStopTheMachine :
    ((walking 18 (frame 19 [])).phase = .walk ∧ (walking 18 (frame 19 [])).oi.toNat ≠ (frame 19 []).config.params.oiEnd ∧
      (walking 18 (frame 19 [])).oi.toNat < (walking 18 (frame 19 [])).flen.toNat ∧
      (walking 18 (frame 19 [])).readFb (walking 18 (frame 19 [])).oi.toNat = none) ∧
    ((0xFF : BitVec 12).toNat < (frame 0 []).config.fbSize.bytes ∧ (frame 0 []).readFb (0xFF : BitVec 12).toNat = none) ∧
    ((252 : BitVec 12).toNat % 4 = 0 ∧ (252 : BitVec 12).toNat + 3 < (frame 0 []).config.fbSize.bytes ∧ 3 < 4 ∧
      (frame 0 [(252, 1), (253, 1), (254, 1)]).readFb ((252 : BitVec 12).toNat + 3) = none) := by decide

theorem witness_DecodeStartsTheWalk :
    (frame 2 []).flen.toNat < 3 ∧ octetHolds (frame 3 [(2, 0x82)]) 2 0x82 := by decide

theorem witness_WalkStepFollowsTheOctet :
    ((walking 19 (frame 19 [])).phase = .walk ∧
      (walking 19 (frame 19 [])).oi.toNat = (walking 19 (frame 19 [])).config.params.oiEnd) ∧
    ((walking 19 (frame 19 [])).config.params = {} ∧ (walking 19 (frame 19 [])).oi.toNat = 19) ∧
    ((walking 31 (resetWith widest)).phase = .walk ∧
      (walking 31 (resetWith widest)).oi.toNat = (walking 31 (resetWith widest)).config.params.oiEnd) ∧
    ((walking 3 (frame 3 [])).oi.toNat ≠ (frame 3 []).config.params.oiEnd ∧
      (walking 3 (frame 3 [])).flen.toNat ≤ (walking 3 (frame 3 [])).oi.toNat) ∧
    ((walking 18 (frame 18 [])).oi.toNat ≠ (frame 18 []).config.params.oiEnd ∧
      (walking 18 (frame 18 [])).flen.toNat ≤ (walking 18 (frame 18 [])).oi.toNat) ∧
    ((walking 3 (frame 4 [(3, 0)])).oi.toNat ≠ (frame 4 []).config.params.oiEnd ∧
      octetHolds (walking 3 (frame 4 [(3, 0)])) 3 0) ∧
    ((walking 18 (frame 19 [(18, 0xFF)])).oi.toNat ≠ (frame 19 []).config.params.oiEnd ∧
      octetHolds (walking 18 (frame 19 [(18, 0xFF)])) 18 0xFF) := by decide

theorem witness_DecodeMeetsItsClosedForm :
    dv4.phase = .pending ∧ decodeCmd dv4.cmdq = .ok .decode ∧ frameClass dv4 = some .disDtc ∧
    decodeFrame dv4.config dv4.fb dv4.flen.toNat .disDtc =
      some ⟨[0x2010101000003000, 0x3030305000003000, 0x2080808000003000], .complete, 3⟩ := by decide

theorem witness_DecodeEndsWithinEighteenSteps :
    (∃ t, engineStep (walking 3 (frame 4 [(3, 0x80)])) = .next t ∧ (walking 3 (frame 4 [(3, 0x80)])).phase = .walk ∧
      (frame 4 []).config.params.firstOctet ≤ (walking 3 (frame 4 [(3, 0x80)])).oi.toNat ∧
      (walking 3 (frame 4 [(3, 0x80)])).oi.toNat ≤ (frame 4 []).config.params.oiEnd ∧
      (walking 3 (frame 4 [(3, 0x80)])).config.params = {}) ∧
    (∃ t, engineStep (walking 19 (frame 4 [])) = .next t ∧
      (frame 4 []).config.params.firstOctet ≤ (walking 19 (frame 4 [])).oi.toNat ∧
      (walking 19 (frame 4 [])).oi.toNat ≤ (frame 4 []).config.params.oiEnd) ∧
    (dv4.phase = .pending ∧ decodeCmd dv4.cmdq = .ok .decode ∧ dv4.config.params = {}) ∧
    ((latched 0x80000000 (resetWith narrow)).phase = .pending ∧
      decodeCmd (latched 0x80000000 (resetWith narrow)).cmdq = .ok .decode) :=
  ⟨⟨_, rfl, by decide, by decide, by decide, by decide⟩, ⟨_, rfl, by decide, by decide⟩, by decide, by decide⟩

/-- DV4's frame in a machine with another past: other registers, records, and bytes outside FB[2..18]. -/
def dv4Later : State :=
  { dv4 with
    fb := dv4.fb.write 0 9, res := 7, out := [0x9000000000013001], err := true, ecode := .bitRange, oi := 19
    term := .beyond, cls := .dcs, fault := true, fcode := .bitRange }

theorem witness_DecodeKeepsNoEarlierState :
    dv4.phase = .pending ∧ dv4Later.phase = .pending ∧ decodeCmd dv4.cmdq = .ok .decode ∧
    decodeCmd dv4Later.cmdq = .ok .decode ∧ dv4Later.config = dv4.config ∧ dv4Later.flen = dv4.flen ∧
    (∀ a, a = 2 ∨ (dv4.config.params.firstOctet ≤ a ∧ a ≤ dv4.config.params.lastOctet) →
      dv4Later.readFb a = dv4.readFb a) ∧ ∃ t, engineRun (decodeSteps dv4.config.params) dv4 = .next t := by
  refine ⟨by decide, by decide, by decide, by decide, rfl, rfl, ?_, _, rfl⟩
  intro a h
  have h0 : a ≠ 0 := by
    rintro rfl
    revert h
    decide
  exact Memory.read_write_other dv4.fb 0 a 9 (by omega)

theorem witness_EngineReadsOnlyTheFrame :
    ((walking 19 dv4).phase = .walk → (walking 19 dv4).config.params.firstOctet ≤ (walking 19 dv4).oi.toNat ∧
      (walking 19 dv4).oi.toNat ≤ (walking 19 dv4).config.params.oiEnd) ∧
    ∀ a, a = 2 ∨ ((walking 19 dv4).config.params.firstOctet ≤ a ∧ a ≤ (walking 19 dv4).config.params.lastOctet) →
      a < (walking 19 dv4).flen.toNat →
      Memory.read ((walking 19 dv4).fb.write 4 9) a = (walking 19 dv4).fb.read a := by
  refine ⟨by decide, ?_⟩
  intro a _ h
  have h4 : a < 4 := h
  exact Memory.read_write_other (walking 19 dv4).fb 4 a 9 (by omega)

theorem witness_WalkRecordsCarryTheClass :
    ∃ t, engineStep (walking 3 (frame 4 [(3, 0x80)])) = .next t ∧ (walking 3 (frame 4 [(3, 0x80)])).phase = .walk :=
  ⟨_, rfl, by decide⟩

/-- DV4 ends COMPLETE at octet 3, and a byte above it is written. -/
theorem witness_TrailingBytesDoNotMatter :
    dv4.phase = .pending ∧ decodeCmd dv4.cmdq = .ok .decode ∧
    (∃ t, engineRun (decodeSteps dv4.config.params) dv4 = .next t ∧ t.term = .complete ∧ t.oi.toNat = 3) ∧
    ∀ a, a ≤ 3 → Memory.read (dv4.fb.write 4 9) a = dv4.fb.read a :=
  ⟨by decide, by decide, ⟨_, rfl, by decide, by decide⟩,
    fun a h => Memory.read_write_other dv4.fb 4 a 9 (by omega)⟩

/-- A frame that ends COMPLETE at 3, one that ends SHORT at 18 and one that ends BEYOND. -/
theorem witness_WalkOutcomeFollowsTheFrame :
    (∃ d, decodeFrame testConfig [(3, 0)] 4 .disDtc = some d ∧ d.term = .complete ∧ d.oi = 3) ∧
    (∃ d, decodeFrame testConfig ((List.range 15).map fun k => (k + 3, 0x80)) 18 .disDtc = some d ∧
      d.term = .short ∧ d.oi = 18) ∧
    (∃ d, decodeFrame testConfig ((List.range 16).map fun k => (k + 3, 0x80)) 19 .dcs = some d ∧ d.term = .beyond) :=
  ⟨⟨_, rfl, by decide, by decide⟩, ⟨_, rfl, by decide, by decide⟩, ⟨_, rfl, by decide⟩⟩

/-- A walk at octet 4 of a written frame, with a legal write held, meets the invariant, and it has a next step. -/
theorem witness_EveryStepKeepsTheInvariant :
    ({ walking 4 (frame 5 [(3, 0x80), (4, 0)]) with held := some ⟨32, 0x100, 256⟩ } : State).Inv ∧
    ∃ t, step { walking 4 (frame 5 [(3, 0x80), (4, 0)]) with held := some ⟨32, 0x100, 256⟩ } = .next t := by
  refine ⟨?_, _, rfl⟩
  constructor <;> decide

theorem witness_NoStepChangesTheConfiguration : ∃ t, step (walking 3 (frame 4 [(3, 0)])) = .next t := ⟨_, rfl⟩

theorem witness_OutputOnlyGrows : ∃ t, step (walking 3 (frame 4 [(3, 0)])) = .next t := ⟨_, rfl⟩

theorem witness_RunningCommandSeesAFixedFrame :
    (∃ t, step (latched 0x30800001 (frame 4 [(3, 0)])) = .next t ∧
      (latched 0x30800001 (frame 4 [(3, 0)])).busy = true ∧
      (latched 0x30800001 (frame 4 [(3, 0)])).schedule.head? ≠ some .reset ∧ t.readFb 3 ≠ some 0) ∧
    (∃ t, step { dv4 with schedule := [.host], hostQueue := [.flen 9] } = .next t ∧
      ({ dv4 with schedule := [.host], hostQueue := [.flen 9] } : State).busy = true) :=
  ⟨⟨_, rfl, by decide, by decide, by decide⟩, ⟨_, rfl, by decide⟩⟩

theorem witness_HostTurnIssuesTheNextOperation :
    ({ dv4 with hostQueue := [.wait], schedule := [.host] } : State).held = none ∧
    ({ dv4 with hostQueue := [.wait], schedule := [.host] } : State).hostQueue = .wait :: [] ∧
    ({ dv4 with hostQueue := [.wait], schedule := [.host] } : State).schedule = .host :: [] ∧
    ({ frame 4 [] with hostQueue := [.wait] } : State).held = none ∧
    ({ frame 4 [] with hostQueue := [.wait] } : State).hostQueue = .wait :: [] ∧
    ({ frame 4 [] with hostQueue := [.wait] } : State).schedule = [] ∧
    ({ frame 4 [] with hostQueue := [.wait] } : State).phase = .idle := by decide

theorem witness_LengthRegisterAccess :
    (256 : Word32).toNat ≤ (frame 4 []).config.fbSize.bytes ∧ (frame 4 []).phase = .idle ∧
    (frame 4 []).config.fbSize.bytes < (257 : Word32).toNat := by decide

theorem witness_CommandRegisterAccess : (frame 4 []).phase = .idle ∧ dv4.phase ≠ .idle := by decide

/-- The default parameters but the smallest frame buffer, whose reserved offsets begin at 19. -/
def smallest : State := State.resetUnder { testConfig with fbSize := ⟨19, by decide⟩ }

theorem witness_ReadOnlyAndReservedOffsetsFault :
    (0x110 ≤ (0x110 : BitVec 12).toNat ∧ 0x110 ≤ (0xFFF : BitVec 12).toNat) ∧
    (smallest.config.fbSize.bytes ≤ (19 : BitVec 12).toNat ∧ (19 : BitVec 12).toNat < 0x100) ∧
    (smallest.config.fbSize.bytes ≤ (0xFF : BitVec 12).toNat ∧ (0xFF : BitVec 12).toNat < 0x100) ∧
    ((0x108 : BitVec 12) = 0x108 ∨ (0x108 : BitVec 12) = 0x10C) ∧
    ((0x10C : BitVec 12) = 0x108 ∨ (0x10C : BitVec 12) = 0x10C) := by decide

theorem witness_IllShapedAccessesFault :
    ((0xFF : BitVec 12).toNat < (frame 0 []).config.fbSize.bytes ∧ 16 ≠ 8 ∧
      (16 ≠ 32 ∨ (0xFF : BitVec 12).toNat % 4 ≠ 0)) ∧
    ((1 : BitVec 12).toNat < (frame 0 []).config.fbSize.bytes ∧ 32 ≠ 8 ∧ (32 ≠ 32 ∨ (1 : BitVec 12).toNat % 4 ≠ 0)) ∧
    (0x100 ≤ (0x100 : BitVec 12).toNat ∧ (0x100 : BitVec 12).toNat < 0x110 ∧
      (8 ≠ 32 ∨ (0x100 : BitVec 12).toNat % 4 ≠ 0)) ∧
    (0x100 ≤ (0x10F : BitVec 12).toNat ∧ (0x10F : BitVec 12).toNat < 0x110 ∧
      (32 ≠ 32 ∨ (0x10F : BitVec 12).toNat % 4 ≠ 0)) := by decide

theorem witness_ByteAccessToTheFrame :
    ((0 : BitVec 12).toNat < (frame 0 []).config.fbSize.bytes ∧
      (0xFF : BitVec 12).toNat < (frame 0 []).config.fbSize.bytes ∧ (frame 0 []).phase = .idle) ∧
    (frame 0 [(0xFF, 7)]).readFb (0xFF : BitVec 12).toNat = some 7 := by decide

theorem witness_WordAccessIsLittleEndian :
    ((0 : BitVec 12).toNat % 4 = 0 ∧ (0 : BitVec 12).toNat + 3 < (frame 0 []).config.fbSize.bytes) ∧
    ((252 : BitVec 12).toNat % 4 = 0 ∧ (252 : BitVec 12).toNat + 3 < (frame 0 []).config.fbSize.bytes) ∧
    (frame 0 []).phase = .idle ∧
    ((frame 0 [(252, 1), (253, 2), (254, 3), (255, 4)]).readFb (252 : BitVec 12).toNat = some 1 ∧
      (frame 0 [(252, 1), (253, 2), (254, 3), (255, 4)]).readFb ((252 : BitVec 12).toNat + 1) = some 2 ∧
      (frame 0 [(252, 1), (253, 2), (254, 3), (255, 4)]).readFb ((252 : BitVec 12).toNat + 2) = some 3 ∧
      (frame 0 [(252, 1), (253, 2), (254, 3), (255, 4)]).readFb ((252 : BitVec 12).toNat + 3) = some 4) := by decide

theorem witness_WritesAreHeldWhileBusy :
    (dv4.busy = true ∧ writeFault dv4.config ⟨8, 0xFF, 1⟩ = none ∧ writeFault dv4.config ⟨32, 0x100, 256⟩ = none ∧
      writeFault dv4.config ⟨32, 0x104, 0⟩ = none) ∧
    ({ dv4 with held := some ⟨8, 0xFF, 1⟩ } : State).held = some ⟨8, 0xFF, 1⟩ ∧
    ({ frame 0 [] with held := some ⟨8, 0xFF, 1⟩ } : State).phase = .idle ∧
    writeFault (frame 0 []).config ⟨8, 0xFF, 1⟩ = none ∧
    writeFault dv4.config ⟨32, 0x100, 257⟩ = some .badLength ∧ writeFault dv4.config ⟨32, 0x108, 0⟩ = some .bus ∧
    ∃ t, hostOp (.read ⟨32, 0x10C⟩) dv4 = .next t :=
  ⟨by decide, rfl, rfl, by decide, by decide, by decide, _, rfl⟩

theorem witness_HostTurnsLeaveTheEngineAlone :
    dv4.busy = true ∧ (∃ t, hostTurn { dv4 with hostQueue := [.cmd 0] } = .next t) ∧
    (∃ t, hostTurn { dv4 with hostQueue := [.ww 0x10C 0] } = .next t) ∧
    ∃ t, hostTurn { dv4 with hostQueue := [.rw 0x10C] } = .next t :=
  ⟨by decide, ⟨_, rfl⟩, ⟨_, rfl⟩, ⟨_, rfl⟩⟩

theorem witness_WaitPollsUntilIdle :
    ({ dv4 with hostQueue := [.wait] } : State).held = none ∧
    ({ dv4 with hostQueue := [.wait] } : State).hostQueue = .wait :: [] ∧
    ({ dv4 with hostQueue := [.wait] } : State).busy = true ∧
    ({ frame 0 [] with hostQueue := [.wait] } : State).held = none ∧
    ({ frame 0 [] with hostQueue := [.wait] } : State).hostQueue = .wait :: [] ∧
    ({ frame 0 [] with hostQueue := [.wait] } : State).busy = false := by decide

theorem witness_ResetClearsTheBlock : ({ dv4 with schedule := [.reset] } : State).schedule = .reset :: [] := rfl

theorem witness_IdleMachineWaits :
    (frame 4 []).phase = .idle ∧ (frame 4 []).held = none ∧ (frame 4 []).hostQueue = [] ∧ (frame 4 []).schedule = [] := by
  decide

end Sys2Proof.Tests
end

/-! ### What the engine reads of the frame buffer

Two runs of one engine step, from states that differ in the frame buffer only. Each rule below compares the two outcomes of
one operation; the byte that the operation reads is a premise of its rule. -/

namespace Sys2Proof.Machine

/-- `m` reads as the frame buffer of `s` on the bytes that belong to the engine: byte 2 and the capability octets, inside
the frame (R13, R162). -/
def AgreesInFrame (s : State) (m : Memory) : Prop :=
  ∀ a, a = 2 ∨ (s.config.params.firstOctet ≤ a ∧ a ≤ s.config.params.lastOctet) → a < s.flen.toNat →
    m.read a = s.fb.read a

/-- The octet index of a legal bit number is a capability octet's. -/
theorem octetIndex_mem_capabilityOctets {p : Params} {b : BitNum} (h : legalBit p b) :
    p.firstOctet ≤ octetIndex p b ∧ octetIndex p b ≤ p.lastOctet := by
  obtain ⟨_, ⟨_, hlast⟩, _⟩ := p.ok
  obtain ⟨_, hhi⟩ := h
  have hdiv : (b.toNat - 1) / 8 ≤ (p.bitMax - 1) / 8 := Nat.div_le_div_right (by omega)
  unfold octetIndex
  omega

/-- On a legal bit number R110's sum does not wrap in its 8 bits. -/
theorem octetOf_toNat {p : Params} {b : BitNum} (h : legalBit p b) : (octetOf p b).toNat = octetIndex p b := by
  obtain ⟨⟨hmin, _⟩, _, ⟨hend, h31⟩, _⟩ := p.ok
  obtain ⟨hfirst, hlast⟩ := octetIndex_mem_capabilityOctets h
  have hsub : (b - 1).toNat = b.toNat - 1 := BitVec.toNat_sub_of_le (BitVec.le_def.2 (le_trans hmin h.1))
  rw [octetOf, BitVec.toNat_add, BitVec.toNat_ushiftRight, hsub, Nat.shiftRight_eq_div_pow, BitVec.toNat_ofNat]
  unfold octetIndex at *
  omega

/-- The target octet of a legal bit number reads alike in memories that agree in the frame. -/
theorem AgreesInFrame.read_target {s : State} {m : Memory} (h : AgreesInFrame s m) {b : BitNum}
    (hb : legalBit s.config.params b) (hf : (octetOf s.config.params b).toNat < s.flen.toNat) :
    m.read (octetOf s.config.params b).toNat = s.fb.read (octetOf s.config.params b).toNat := by
  refine h _ (.inr ?_) hf
  rw [octetOf_toNat hb]
  exact octetIndex_mem_capabilityOctets hb

/-- A range whose checks pass starts at a legal bit number. -/
theorem legalBit_of_rangeFault_eq_none (p : Params) (sb eb : BitNum) (h : rangeFault p sb eb = none) :
    legalBit p sb := by
  rw [← bitFault_eq_none]
  unfold rangeFault at h
  unfold bitFault
  split at h
  · cases h
  · simp_all

/-- Inside the frame, on an unwritten byte, `withTarget` stops with Uninit. -/
theorem withTarget_unwritten (b : BitNum) (s : State) (k : Byte → Result)
    (hf : (octetOf s.config.params b).toNat < s.flen.toNat) (hr : s.readFb (octetOf s.config.params b).toNat = none) :
    withTarget b s k = .fault .uninit := by
  unfold withTarget octetAbsent
  simp [Nat.not_le.2 hf, hr]

theorem ignoringFrame_commandFault_setFb (c : FaultCode) (s : State) (m : Memory) :
    ignoringFrame (commandFault c { s with fb := m }) = ignoringFrame (commandFault c s) := by
  rw [commandFault_eq, commandFault_eq]
  rfl

/-- An operand check that comes out alike in both runs leaves only the passing case to compare. -/
theorem ignoringFrame_unlessFault_setFb (f : Option FaultCode) (s : State) (m : Memory) (k k' : Result)
    (h : f = none → ignoringFrame k' = ignoringFrame k) :
    ignoringFrame (unlessFault f { s with fb := m } k') = ignoringFrame (unlessFault f s k) := by
  cases f with
  | none => exact h rfl
  | some c => exact ignoringFrame_commandFault_setFb c s m

/-- `withTarget` looks at the frame buffer at the target octet of a legal bit number only. -/
theorem ignoringFrame_withTarget_setFb {b : BitNum} {s : State} {m : Memory} (h : AgreesInFrame s m)
    (hb : legalBit s.config.params b) (k k' : Byte → Result) (hk : ∀ o, ignoringFrame (k' o) = ignoringFrame (k o)) :
    ignoringFrame (withTarget b { s with fb := m } k') = ignoringFrame (withTarget b s k) := by
  rcases withTarget_cases b s k with ⟨hf, e⟩ | ⟨hf, hr, e⟩ | ⟨o, ⟨hf, hr⟩, e⟩
  · rw [e, withTarget_absent b { s with fb := m } k' hf]
    rfl
  · rw [e, withTarget_unwritten b { s with fb := m } k' hf ((h.read_target hb hf).trans hr)]
  · rw [e, withTarget_present b { s with fb := m } k' o ⟨hf, (h.read_target hb hf).trans hr⟩]
    exact hk o

/-- DECODE's class rests on byte 2, and on it inside the frame only (R153). -/
theorem frameClass_setFb {s : State} {m : Memory} (h : AgreesInFrame s m) :
    frameClass { s with fb := m } = frameClass s := by
  by_cases hf : s.flen.toNat < 3
  · simp [frameClass, hf]
  · have hr : m.read 2 = s.fb.read 2 := h 2 (.inl rfl) (by omega)
    simp [frameClass, hf, State.readFb, hr]

/-- The decode step of every command reads inside the frame only. -/
theorem ignoringFrame_exec_setFb (i : Instr) {s : State} {m : Memory} (h : AgreesInFrame s m) :
    ignoringFrame (exec i { s with fb := m }) = ignoringFrame (exec i s) := by
  have legal {b : BitNum} (hn : bitFault s.config.params b = none) : legalBit s.config.params b :=
    (bitFault_eq_none _ b).1 hn
  cases i with
  | map b => exact ignoringFrame_unlessFault_setFb _ s m _ _ fun _ => rfl
  | testbit b | setbit b v | rsvchk b d =>
    exact ignoringFrame_unlessFault_setFb _ s m _ _ fun hn =>
      ignoringFrame_withTarget_setFb h (legal hn) _ _ fun _ => rfl
  | getfield sb eb =>
    exact ignoringFrame_unlessFault_setFb _ s m _ _ fun hn =>
      ignoringFrame_withTarget_setFb h (legalBit_of_rangeFault_eq_none _ sb eb hn) _ _ fun _ => rfl
  | boolfld b d lp =>
    exact ignoringFrame_unlessFault_setFb _ s m _ _ fun hn =>
      ignoringFrame_unlessFault_setFb (pairFault s lp) s m _ _ fun _ =>
        ignoringFrame_withTarget_setFb h (legal hn) _ _ fun _ => rfl
  | codedfld sb eb d tt =>
    refine ignoringFrame_unlessFault_setFb _ s m _ _ fun hn => ?_
    cases tagTable s.config.layout.raw tt with
    | none => exact ignoringFrame_commandFault_setFb .badTable s m
    | some t =>
      exact ignoringFrame_withTarget_setFb h (legalBit_of_rangeFault_eq_none _ sb eb hn) _ _ fun _ => rfl
  | decode =>
    change ignoringFrame (execDecode { s with fb := m }) = ignoringFrame (execDecode s)
    unfold execDecode
    rw [frameClass_setFb h]
    cases frameClass s <;> rfl

/-- A walk step reads octet OI inside the frame only, and none at OI_END. -/
theorem ignoringFrame_walkStep_setFb {s : State} {m : Memory}
    (h : s.oi.toNat ≠ s.config.params.oiEnd → s.oi.toNat < s.flen.toNat → m.read s.oi.toNat = s.fb.read s.oi.toNat) :
    ignoringFrame (walkStep { s with fb := m }) = ignoringFrame (walkStep s) := by
  by_cases hend : s.oi.toNat = s.config.params.oiEnd
  · simp [walkStep, hend, endWalk, State.emit, ignoringFrame]
  · by_cases hf : s.flen.toNat ≤ s.oi.toNat
    · simp [walkStep, hend, octetAbsent, hf, endWalk, State.emit, ignoringFrame]
    · have hr : m.read s.oi.toNat = s.fb.read s.oi.toNat := h hend (by omega)
      simp only [walkStep, hend, octetAbsent, hf, State.readFb, hr]
      cases s.fb.read s.oi.toNat with
      | none => rfl
      | some o => cases he : extensionClear s.config s.oi.toNat o <;> simp [he, endWalk, State.emit, ignoringFrame]

/-- In a walk from FIRST_OCTET to OI_END, the octet a walk step reads is a capability octet. -/
theorem AgreesInFrame.read_walk {s : State} {m : Memory} (h : AgreesInFrame s m)
    (hoi : s.config.params.firstOctet ≤ s.oi.toNat ∧ s.oi.toNat ≤ s.config.params.oiEnd)
    (hend : s.oi.toNat ≠ s.config.params.oiEnd) (hf : s.oi.toNat < s.flen.toNat) :
    m.read s.oi.toNat = s.fb.read s.oi.toNat := by
  have hlast : s.config.params.oiEnd = s.config.params.lastOctet + 1 := s.config.params.ok.2.2.1.1
  exact h _ (.inr ⟨hoi.1, by omega⟩) hf

/-- Settles O37, phase by phase: an idle engine reads nothing, a decode step reads byte 2 or the octet of a legal bit
number, and a walk step reads octet OI. -/
theorem engineReadsOnlyTheFrame : Obligations.EngineReadsOnlyTheFrame := by
  intro s m hoi (h : AgreesInFrame s m)
  unfold engineStep
  cases hp : s.phase with
  | idle => simp only [ignoringFrame, hp]
  | pending =>
    cases hd : decodeCmd s.cmdq with
    | ok i => simpa only [hp, hd] using ignoringFrame_exec_setFb i h
    | error e => simpa only [hp, hd] using ignoringFrame_commandFault_setFb .illegalCmd s m
  | walk => simpa only [hp] using ignoringFrame_walkStep_setFb (h.read_walk (hoi hp))

end Sys2Proof.Machine

/-! ### What a step does, as a chain of effects

Every update that a step of the machine makes to its state is one of the effects below, each with what is known where it
happens; an invariant is then proved effect by effect, and the step functions are walked through once. -/

namespace Sys2Proof.Machine

/-- BUSY is 1 exactly in PENDING or WALK (R35). -/
theorem busy_eq_true_iff (s : State) : s.busy = true ↔ s.phase = .pending ∨ s.phase = .walk := by
  unfold State.busy
  cases s.phase <;> simp [Phase.busy]

/-- One update of the state, by the engine, the host or RESET, with the conditions under which it happens. -/
inductive Effect : State → State → Prop where
  /-- The model's own fields move on (log 8). -/
  | world (s : State) (q : List HostOp) (r : List Word32) (ts : List Turn) :
    Effect s { s with hostQueue := q, hostReads := r, schedule := ts }
  /-- A host access faults (R215). -/
  | hostFault (s : State) (c : FaultCode) : c ≠ .none → Effect s (hostFaulted c s)
  /-- A legal write is held while the engine is busy (R62). -/
  | hold (s : State) (w : HostWrite) : writeFault s.config w = none → Effect s { s with held := some w }
  /-- The held write is taken up (R62). -/
  | release (s : State) : Effect s { s with held := none }
  /-- A legal write takes effect, in IDLE (R62). -/
  | write (s : State) (w : HostWrite) :
    writeFault s.config w = none → s.busy = false → Effect s (applyWrite w s)
  /-- A command faults (R212). -/
  | commandFault (s : State) (c : FaultCode) : c = .illegalCmd ∨ c.ofCommand → Effect s (faulted c s)
  /-- A command completes with a result in RES (R24). -/
  | result (s : State) (v : Word32) : Effect s (completed (s.setRes v))
  /-- A command completes with a store to a written octet of the frame (R114). -/
  | store (s : State) (i : Nat) (o v : Byte) : octetHolds s i o → Effect s (completed (s.writeFb i v))
  /-- A command completes with records (R137 to R139). -/
  | records (s : State) (rs : List Record) : (∀ r ∈ rs, recordOk r = true) → Effect s (completed (s.emit rs))
  /-- DECODE starts a walk (R155). -/
  | startWalk (s : State) (cls : FrameClass) :
    Effect s { s with
      err := false, ecode := .none, term := .none, cls := cls
      oi := .ofNat 5 s.config.params.firstOctet, phase := .walk }
  /-- A walk ends (R157). -/
  | endWalk (s : State) (rs : List Record) (t : Term) : s.phase = .walk → (∀ r ∈ rs, recordOk r = true) →
    Effect s { s with out := s.out ++ rs, term := t, phase := .idle }
  /-- A walk passes an octet (R157, R160). -/
  | nextOctet (s : State) (rs : List Record) (o : Byte) : s.phase = .walk → (∀ r ∈ rs, recordOk r = true) →
    s.oi.toNat ≠ s.config.params.oiEnd → octetHolds s s.oi.toNat o →
    extensionClear s.config s.oi.toNat o = false →
    Effect s { s with out := s.out ++ rs, oi := s.oi + 1 }
  /-- RESET (R240). -/
  | reset (s : State) : Effect s (resetAction s)

/-- One effect after another. -/
abbrev Effects : State → State → Prop := Relation.ReflTransGen Effect

/-! #### The engine -/

/-- Every record of an octet's descriptors has the form of R91 and R92. -/
theorem octetRecords_recordOk (s : State) (o : Byte) : ∀ r ∈ octetRecords s o, recordOk r = true := by
  intro r hr
  obtain ⟨f, _, hr⟩ := List.mem_flatMap.1 hr
  unfold renderField renderRsv renderBool renderCoded at hr
  cases hk : f.kind with
  | rsv =>
    simp only [hk] at hr
    split at hr
    · rw [List.mem_singleton.1 hr, mkRec_recordOk]
    · cases hr
  | bool | coded =>
    simp only [hk] at hr
    rw [List.mem_singleton.1 hr, mkRec_recordOk]

/-- A command's decode step that answers a next state is one effect. -/
theorem effect_of_exec {i : Instr} {s t : State} (h : exec i s = .next t) : Effect s t := by
  rcases exec_cases i s t h with
    ⟨c, rfl, hc, _⟩ | ⟨_, v, rfl⟩ | ⟨b, v, o, _, _, ho, rfl⟩ | ⟨_, rs, rfl, hrs⟩ | ⟨_, cls, rfl⟩
  · exact .commandFault s c (.inr hc)
  · exact .result s v
  · exact .store s _ o _ ho
  · exact .records s rs hrs
  · exact .startWalk s cls

/-- A walk step that answers a next state is one effect. -/
theorem effect_of_walkStep {s t : State} (hw : s.phase = .walk) (h : walkStep s = .next t) : Effect s t := by
  rcases walkStep_cases s with
    ⟨_, e⟩ | ⟨_, _, e⟩ | ⟨_, _, _, e⟩ | ⟨o, _, _, _, e⟩ | ⟨o, hend, ho, hext, e⟩ <;> rw [e] at h <;> cases h
  · exact .endWalk s _ _ hw (by simp [beyondRecord, mkRec_recordOk])
  · exact .endWalk s _ _ hw (by simp [shortRecord, mkRec_recordOk])
  · exact .endWalk s _ _ hw (octetRecords_recordOk s o)
  · exact .nextOctet s _ o hw (octetRecords_recordOk s o) hend ho hext

/-- The engine's step that answers a next state is at most one effect. -/
theorem effects_of_engineStep {s t : State} (h : engineStep s = .next t) : Effects s t := by
  rcases engineStep_cases s with ⟨_, e⟩ | ⟨i, _, _, e⟩ | ⟨_, _, _, e⟩ | ⟨hw, e⟩ <;> rw [e] at h
  · cases h
    exact .refl
  · exact .single (effect_of_exec h)
  · cases h
    exact .single (.commandFault s _ (.inl rfl))
  · exact .single (effect_of_walkStep hw h)

/-! #### The host -/

/-- A faulting read has a code. -/
theorem readFault_ne_none {c : Config} {r : HostRead} {f : FaultCode} (h : readFault c r = some f) : f ≠ .none := by
  rintro rfl
  unfold readFault busUnless at h
  split at h <;> simp at h

/-- A faulting write has a code. -/
theorem writeFault_ne_none {c : Config} {w : HostWrite} {f : FaultCode} (h : writeFault c w = some f) : f ≠ .none := by
  rintro rfl
  unfold writeFault busUnless at h
  split at h
  case h_2 => split at h <;> simp at h
  all_goals simp at h

/-- A frame byte's offset lies in the buffer. -/
theorem lt_of_target_fb {c : Config} {off : BitVec 12} {i : Nat} (h : target c off = .fb i) : i < c.fbSize.bytes := by
  unfold target at h
  split at h
  · cases h
    assumption
  · repeat' split at h
    all_goals cases h

/-- A legal write to FB that is no byte write has all four bytes in the buffer (R60). -/
theorem word_lt_of_writeFault_none {c : Config} {w : HostWrite} {i : Nat} (ht : target c w.off = .fb i)
    (h8 : w.width ≠ 8) (h : writeFault c w = none) : i + 3 < c.fbSize.bytes := by
  simp only [writeFault, ht, busUnless, ite_eq_left_iff, reduceCtorEq, imp_false, not_not, fbShapeOk, h8,
    decide_false, Bool.false_or, Bool.and_eq_true, decide_eq_true_eq] at h
  exact h.2

/-- A legal write to FLEN has a value within FB_SIZE (R55). -/
theorem le_of_writeFault_none {c : Config} {w : HostWrite} (ht : target c w.off = .flen)
    (h : writeFault c w = none) : w.value.toNat ≤ c.fbSize.bytes := by
  by_contra hv
  simp only [writeFault, ht, hv, if_false] at h
  split at h <;> cases h

/-- A host write is one effect. -/
theorem effect_of_hostWrite {w : HostWrite} {s t : State} (h : hostWrite w s = .next t) : Effect s t := by
  rcases hostWrite_cases w s with ⟨c, hf, e⟩ | ⟨hf, _, e⟩ | ⟨hf, hb, e⟩ <;> rw [e] at h <;> cases h
  · exact .hostFault s c (writeFault_ne_none hf)
  · exact .hold s w hf
  · exact .write s w hf hb

/-- A read's answer moves the model's own fields only. -/
theorem effect_answer (s : State) (v : Word32) : Effect s (s.answer v) := .world s _ _ _

/-- A host operation that answers a next state. -/
theorem effects_of_hostOp {op : HostOp} {s t : State} (h : hostOp op s = .next t) : Effects s t := by
  cases op with
  | read r =>
    change hostRead r s = _ at h
    rcases hostRead_cases r s with ⟨c, hf, e⟩ | ⟨_, _, e⟩ | ⟨v, _, _, e⟩ <;> rw [e] at h <;> cases h
    · exact .tail (.single (.hostFault s c (readFault_ne_none hf))) (effect_answer _ 0)
    · exact .single (effect_answer s v)
  | write w => exact .single (effect_of_hostWrite h)
  | wait =>
    unfold hostOp at h
    injection h with h
    rw [← h]
    split
    · exact .single (.world s _ _ _)
    · exact .single (effect_answer s _)

/-- A host turn that answers a next state. -/
theorem effects_of_hostTurn {s t : State} (h : hostTurn s = .next t) : Effects s t := by
  rcases hostTurn_cases s with ⟨_, _, _, e⟩ | ⟨w, _, _, e⟩ | ⟨_, _, e⟩ | ⟨op, ops, _, _, e⟩ <;> rw [e] at h
  · cases h
    exact .refl
  · exact .tail (.single (.release s)) (effect_of_hostWrite h)
  · cases h
    exact .refl
  · exact .head (.world s ops _ _) (effects_of_hostOp h)

/-- A step that answers a next state is a chain of effects. -/
theorem effects_of_step {s t : State} (h : step s = .next t) : Effects s t := by
  obtain ⟨ts, ⟨e, _⟩ | ⟨e, _⟩ | ⟨e, _⟩⟩ := step_cases s <;> rw [e] at h <;>
    refine .head (.world s s.hostQueue s.hostReads ts) ?_
  · exact effects_of_hostTurn h
  · exact effects_of_engineStep h
  · cases h
    exact .single (.reset _)

/-- What every effect keeps, a chain of effects keeps. -/
theorem effects_keep {P : State → Prop} (keep : ∀ {s t}, Effect s t → P s → P t) {s t : State} (hs : P s)
    (chain : Effects s t) : P t := by
  induction chain with
  | refl => exact hs
  | tail _ e ih => exact keep e ih

/-- What every effect keeps, every step keeps. -/
theorem step_keeps {P : State → Prop} (keep : ∀ {s t}, Effect s t → P s → P t) {s t : State} (hs : P s)
    (h : step s = .next t) : P t :=
  effects_keep keep hs (effects_of_step h)

/-! ### The invariant -/

namespace State.Inv

variable {s : State}

/-- The invariant of every reset state, whatever the configuration. -/
theorem resetUnder (c : Config) : (State.resetUnder c).Inv where
  memoryCanonical := rfl
  memoryInBuffer := rfl
  lengthLegal := Nat.zero_le _
  indexLegal := .inl rfl
  indexZero _ := ⟨rfl, rfl, nofun⟩
  walking := nofun
  walked := nofun
  faultCode := ⟨fun _ => rfl, fun _ => rfl⟩
  errorCode := ⟨fun _ => rfl, fun _ => rfl⟩
  errorIsFault := nofun
  errorIsCommands := ⟨nofun, nofun⟩
  heldLegal := nofun
  recordsOk := rfl

/-- A walk's index is a capability octet's or OI_END. -/
theorem index_of_walk (h : s.Inv) (hw : s.phase = .walk) :
    s.config.params.firstOctet ≤ s.oi.toNat ∧ s.oi.toNat ≤ s.config.params.oiEnd :=
  h.indexLegal.resolve_left fun h0 => (h.indexZero h0).2.2 hw

/-- Records of the right form may be appended. -/
theorem emit (h : s.Inv) {rs : List Record} (hrs : ∀ r ∈ rs, recordOk r = true) : (s.emit rs).Inv :=
  { h with recordsOk := by simpa [h.recordsOk] using hrs }

/-- Outside a walk the frame buffer may take any canonical contents within FB_SIZE. -/
theorem setFb (h : s.Inv) {m : Memory} (hm : m.wf = true) (hb : m.below s.config.fbSize.bytes = true)
    (hw : s.phase ≠ .walk) : ({ s with fb := m } : State).Inv :=
  { h with memoryCanonical := hm, memoryInBuffer := hb, walked := fun hp => absurd hp hw }

/-- A byte below FB_SIZE may be written outside a walk. -/
theorem writeFb (h : s.Inv) {i : Nat} (v : Byte) (hi : i < s.config.fbSize.bytes) (hw : s.phase ≠ .walk) :
    (s.writeFb i v).Inv :=
  h.setFb (Memory.wf_write _ _ _ h.memoryCanonical) (Memory.below_write _ _ _ _ hi h.memoryInBuffer) hw

/-- Four bytes below FB_SIZE may be written outside a walk. -/
theorem writeWord (h : s.Inv) {i : Nat} (v : Word32) (hi : i + 3 < s.config.fbSize.bytes) (hw : s.phase ≠ .walk) :
    (writeWord s i v).Inv := by
  have h0 : i < s.config.fbSize.bytes := by omega
  have h1 : i + 1 < s.config.fbSize.bytes := by omega
  have h2 : i + 2 < s.config.fbSize.bytes := by omega
  exact (((h.writeFb _ h0 hw).writeFb _ h1 hw).writeFb _ h2 hw).writeFb _ hi hw

/-- The engine may go to any phase but WALK. -/
theorem setPhase (h : s.Inv) {p : Phase} (hp : p ≠ .walk) : ({ s with phase := p } : State).Inv :=
  { h with
    indexZero := fun h0 => by
      obtain ⟨hterm, hcls, _⟩ := h.indexZero h0
      exact ⟨hterm, hcls, hp⟩
    walking := fun hw => absurd hw hp
    walked := fun hw => absurd hw hp }

/-- The end of a command that did not fault. -/
theorem completed (h : s.Inv) : (completed s).Inv :=
  { h.setPhase (p := .idle) nofun with
    walking := nofun
    errorCode := ⟨fun _ => rfl, fun _ => rfl⟩
    errorIsFault := nofun
    errorIsCommands := ⟨nofun, nofun⟩ }

/-- A host-access fault. -/
theorem hostFaulted (h : s.Inv) {c : FaultCode} (hc : c ≠ .none) : (hostFaulted c s).Inv := by
  have hcode : (if s.fault = true then s.fcode else c) ≠ .none := by
    split
    next hf => exact fun e => Bool.false_ne_true ((h.faultCode.2 e).symm.trans hf)
    next => exact hc
  exact { h with
    faultCode := ⟨nofun, fun e => absurd e hcode⟩
    errorIsFault := fun _ => rfl }

/-- A command fault. -/
theorem faulted (h : s.Inv) {c : FaultCode} (hc : c = .illegalCmd ∨ c.ofCommand) : (faulted c s).Inv := by
  have hcode : c ≠ .none ∧ c ≠ .badLength ∧ c ≠ .bus := by
    rcases hc with rfl | ⟨h0, _, hl, hb⟩
    · decide
    · exact ⟨h0, hl, hb⟩
  obtain ⟨hnone, hcommand⟩ := hcode
  exact { (h.hostFaulted hnone).setPhase (p := .idle) nofun with
    walking := nofun
    errorCode := ⟨nofun, fun he => absurd he hnone⟩
    errorIsFault := fun _ => rfl
    errorIsCommands := hcommand }

/-- A legal write that takes effect. -/
theorem applyWrite (h : s.Inv) {w : HostWrite} (hf : writeFault s.config w = none) (hb : s.busy = false) :
    (applyWrite w s).Inv := by
  have hw : s.phase ≠ .walk := fun hp => Bool.false_ne_true (hb.symm.trans ((busy_eq_true_iff s).2 (.inr hp)))
  rcases applyWrite_cases w s with ⟨i, ht, h8, e⟩ | ⟨i, ht, h8, e⟩ | ⟨ht, e⟩ | ⟨ht, e⟩ | ⟨_, e⟩ <;> rw [e]
  · exact h.writeFb _ (lt_of_target_fb ht) hw
  · exact h.writeWord _ (word_lt_of_writeFault_none ht h8 hf) hw
  · have hv := le_of_writeFault_none ht hf
    have hlen : (w.value.extractLsb' 0 9).toNat ≤ w.value.toNat := by
      rw [BitVec.extractLsb'_toNat]
      exact Nat.mod_le _ _
    exact { h with
      lengthLegal := hlen.trans hv
      walked := fun hp => absurd hp hw }
  · exact { h.setPhase (p := .pending) nofun with }
  · exact h

/-- The start of a walk: OI is FIRST_OCTET, below which there is no capability octet. -/
theorem startWalk (h : s.Inv) (cls : FrameClass) :
    ({ s with
      err := false, ecode := .none, term := .none, cls := cls
      oi := .ofNat 5 s.config.params.firstOctet, phase := .walk } : State).Inv := by
  have hoi := firstOctet_toNat s.config.params
  have hpos : (BitVec.ofNat 5 s.config.params.firstOctet).toNat ≠ 0 := by
    have := s.config.params.ok.2.1.1
    omega
  have hend : s.config.params.firstOctet ≤ s.config.params.oiEnd :=
    firstOctet_add_octetCount s.config.params ▸ Nat.le_add_right _ _
  exact { h with
    indexLegal := .inr ⟨hoi.ge, hoi.trans_le hend⟩
    indexZero := fun h0 => absurd h0 hpos
    walking := fun _ => ⟨rfl, rfl⟩
    walked := fun _ j hj hfirst => absurd (hj.trans_eq hoi) hfirst.not_gt
    errorCode := ⟨fun _ => rfl, fun _ => rfl⟩
    errorIsFault := nofun
    errorIsCommands := ⟨nofun, nofun⟩ }

/-- The end of a walk. -/
theorem endWalk (h : s.Inv) (hw : s.phase = .walk) (t : Term) :
    ({ s with term := t, phase := .idle } : State).Inv :=
  { h with
    indexZero := fun h0 => absurd hw (h.indexZero h0).2.2
    walking := nofun
    walked := nofun }

/-- The walk passes octet OI. -/
theorem nextOctet (h : s.Inv) (hw : s.phase = .walk) {o : Byte} (hend : s.oi.toNat ≠ s.config.params.oiEnd)
    (ho : octetHolds s s.oi.toNat o) (hext : extensionClear s.config s.oi.toNat o = false) :
    ({ s with oi := s.oi + 1 } : State).Inv := by
  obtain ⟨hfirst, hle⟩ := h.index_of_walk hw
  have hsucc := oi_succ_toNat s (by omega)
  have hlegal : s.config.params.firstOctet ≤ (s.oi + 1).toNat ∧ (s.oi + 1).toNat ≤ s.config.params.oiEnd := by omega
  have hpos : (s.oi + 1).toNat ≠ 0 := by omega
  have hpassed : octetPassed s s.oi.toNat = true := by
    obtain ⟨hlen, hread⟩ := ho
    simp [octetPassed, hread, hext, octetAbsent, hlen]
  exact { h with
    indexLegal := .inr hlegal
    indexZero := fun h0 => absurd h0 hpos
    walked := fun _ j hj hj' => by
      rcases Nat.lt_succ_iff_lt_or_eq.1 (hj.trans_eq hsucc) with hlt | rfl
      · exact h.walked hw j hlt hj'
      · exact hpassed }

/-- Every effect keeps the invariant. -/
theorem effect {t : State} (e : Effect s t) (h : s.Inv) : t.Inv := by
  cases e with
  | world q r ts => exact { h with }
  | hostFault c hc => exact h.hostFaulted hc
  | hold w hf => exact { h with heldLegal := fun _ hw => Option.some.inj hw ▸ hf }
  | release => exact { h with heldLegal := nofun }
  | write w hf hb => exact h.applyWrite hf hb
  | commandFault c hc => exact h.faulted hc
  | result v => exact { h.completed with }
  | store i o v ho =>
    obtain ⟨hlen, _⟩ := ho
    exact h.completed.writeFb v (Nat.lt_of_lt_of_le hlen h.lengthLegal) nofun
  | records rs hrs => exact h.completed.emit hrs
  | startWalk cls => exact h.startWalk cls
  | endWalk rs t hw hrs => exact (h.emit hrs).endWalk hw t
  | nextOctet rs o hw hrs hend ho hext => exact (h.emit hrs).nextOctet hw hend ho hext
  | reset => exact { resetUnder s.config with recordsOk := h.recordsOk }

end State.Inv

/-- Settles O42: a step is a chain of effects, and each keeps the invariant. -/
theorem everyStepKeepsTheInvariant : Obligations.EveryStepKeepsTheInvariant :=
  fun _ _ hs h => step_keeps State.Inv.effect hs h

/-- Settles O41: the reset state under the standard configuration. -/
theorem resetMeetsTheInvariant : Obligations.ResetMeetsTheInvariant := State.Inv.resetUnder Config.standard

/-! ### What no effect writes -/

/-- A write that takes effect writes FB, FLEN or CMDQ, and neither OUT nor the configuration. -/
theorem applyWrite_keeps_out_config (w : HostWrite) (s : State) :
    (applyWrite w s).out = s.out ∧ (applyWrite w s).config = s.config := by
  rcases applyWrite_cases w s with ⟨i, _, _, e⟩ | ⟨i, _, _, e⟩ | ⟨_, e⟩ | ⟨_, e⟩ | ⟨_, e⟩ <;> rw [e] <;>
    exact ⟨rfl, rfl⟩

/-- No effect writes the configuration. -/
theorem Effect.config_eq {s t : State} (e : Effect s t) : t.config = s.config := by
  cases e with
  | write w _ _ => exact (applyWrite_keeps_out_config w s).2
  | _ => rfl

/-- Settles O43, along the chain of effects. -/
theorem noStepChangesTheConfiguration : Obligations.NoStepChangesTheConfiguration := by
  intro s t h
  exact step_keeps (P := fun u => u.config = s.config) (fun e hu => e.config_eq.trans hu) rfl h

/-- `t` has the records of `s`, in front, and after them only records of the form R91 and R92 give. -/
def OutExtends (s t : State) : Prop := ∃ rs, t.out = s.out ++ rs ∧ ∀ r ∈ rs, recordOk r = true

theorem OutExtends.of_eq {s t : State} (h : t.out = s.out) : OutExtends s t := ⟨[], by simp [h], nofun⟩

theorem OutExtends.trans {s t u : State} (h : OutExtends s t) (h' : OutExtends t u) : OutExtends s u := by
  obtain ⟨rs, e, hrs⟩ := h
  obtain ⟨rs', e', hrs'⟩ := h'
  refine ⟨rs ++ rs', by rw [e', e, List.append_assoc], fun r hr => ?_⟩
  exact (List.mem_append.1 hr).elim (hrs r) (hrs' r)

/-- Every effect extends OUT. -/
theorem Effect.outExtends {s t : State} (e : Effect s t) : OutExtends s t := by
  cases e with
  | records rs hrs | endWalk rs _ _ hrs | nextOctet rs _ _ hrs _ _ _ => exact ⟨rs, rfl, hrs⟩
  | write w _ _ => exact .of_eq (applyWrite_keeps_out_config w s).1
  | _ => exact .of_eq rfl

/-- Settles O44, along the chain of effects. -/
theorem outputOnlyGrows : Obligations.OutputOnlyGrows := by
  intro s t h
  exact step_keeps (P := OutExtends s) (fun e hu => hu.trans e.outExtends) (.of_eq rfl) h

/-- Settles O18, by what the command did. -/
theorem commandsWriteOnlyTheirState : Obligations.CommandsWriteOnlyTheirState := by
  intro i s t h
  rcases exec_cases i s t h with
    ⟨c, rfl, _, _⟩ | ⟨hi, v, rfl⟩ | ⟨b, v, o, rfl, _, _, rfl⟩ | ⟨hi, rs, rfl, _⟩ | ⟨rfl, cls, rfl⟩ <;>
    refine ⟨⟨rfl, rfl, rfl, rfl, rfl, rfl, rfl⟩, ?_⟩
  · exact ⟨fun _ _ => rfl, fun _ _ _ => rfl, fun _ => ⟨rfl, rfl, rfl, rfl⟩, fun _ _ => rfl⟩
  · refine ⟨fun hone hrange => ?_, fun _ _ _ => rfl, fun _ => ⟨rfl, rfl, rfl, rfl⟩, fun _ _ => rfl⟩
    rcases hi with ⟨b, e⟩ | ⟨b, e⟩ | ⟨sb, eb, e⟩
    · exact absurd e (hone b).1
    · exact absurd e (hone b).2
    · exact absurd e (hrange sb eb)
  · refine ⟨fun _ _ => rfl, fun _ _ _ => rfl, fun _ => ⟨rfl, rfl, rfl, rfl⟩, fun a ha => ?_⟩
    exact (readFb_writeFb s _ a _).trans (if_neg (ha b v rfl))
  · refine ⟨fun _ _ => rfl, fun hrsv hbool hcoded => ?_, fun _ => ⟨rfl, rfl, rfl, rfl⟩, fun _ _ => rfl⟩
    rcases hi with ⟨b, d, e⟩ | ⟨b, d, lp, e⟩ | ⟨sb, eb, d, tt, e⟩
    · exact absurd e (hrsv b d)
    · exact absurd e (hbool b d lp)
    · exact absurd e (hcoded sb eb d tt)
  · exact ⟨fun _ _ => rfl, fun _ _ _ => rfl, fun hi => absurd rfl hi, fun _ _ => rfl⟩

/-! ### The STATUS word and the reset values -/

/-- Settles O50: the word is a concatenation, so each field counts with the widths below it. -/
theorem statusWordHoldsItsFields : Obligations.StatusWordHoldsItsFields := by
  intro s
  have hbusy : s.busy.toNat = if s.phase = .pending ∨ s.phase = .walk then 1 else 0 := by
    simp only [← busy_eq_true_iff, Bool.toNat]
    cases s.busy <;> rfl
  unfold statusWord
  rw [← hbusy]
  simp only [toNat_append_eq, BitVec.toNat_ofBool, BitVec.toNat_ofNat]
  omega

/-- Settles O59: each is the field's value in `State.resetUnder`. -/
theorem resetValues : Obligations.ResetValues :=
  ⟨fun _ => rfl, rfl, rfl, rfl, rfl, rfl, rfl, rfl, rfl, rfl, rfl, rfl, rfl, rfl, rfl⟩

/-! ### A step in PENDING -/

/-- In PENDING the engine runs the command that CMDQ decodes to. -/
theorem engineStep_pending {i : Instr} {s : State} (hp : s.phase = .pending) (hd : decodeCmd s.cmdq = .ok i) :
    engineStep s = exec i s := by
  unfold engineStep
  simp only [hp, hd]

/-- Settles O1: a busy machine's turn is the engine's, scheduled or not. -/
theorem pendingStepRunsTheDecodedCommand : Obligations.PendingStepRunsTheDecodedCommand := by
  intro i s hp hd
  constructor
  · intro hs
    rw [step_busy s hs ((busy_eq_true_iff s).2 (.inl hp)), engineStep_pending hp hd]
  · intro ts hs
    have turn : step s = engineStep { s with schedule := ts } := by simp only [step, takeTurn, hs]
    exact turn.trans (engineStep_pending hp hd)

end Sys2Proof.Machine

/-! ### Host accesses

One rule for each outcome of a host operation, then which accesses fault and what a legal one does; the statements about
the host interface are read off these. -/

namespace Sys2Proof.Machine

/-! #### The outcomes of a read and a write -/

/-- BUSY is 0 exactly in IDLE (R35). -/
theorem busy_eq_false_iff (s : State) : s.busy = false ↔ s.phase = .idle := by
  unfold State.busy
  cases s.phase <;> simp [Phase.busy]

/-- A faulting write, busy or not (R215). -/
theorem hostOp_write_fault {s : State} {w : HostWrite} {c : FaultCode} (h : writeFault s.config w = some c) :
    hostOp (.write w) s = .next (hostFaulted c s) := by
  simp only [hostOp, hostWrite, h, hostFault_eq]

/-- A legal write while BUSY is held (R62). -/
theorem hostOp_write_busy {s : State} {w : HostWrite} (h : writeFault s.config w = none) (hb : s.busy = true) :
    hostOp (.write w) s = .next { s with held := some w } := by
  simp only [hostOp, hostWrite, h, hb, if_true]

/-- A legal write in IDLE takes effect (R62). -/
theorem hostOp_write_idle {s : State} {w : HostWrite} (h : writeFault s.config w = none) (hi : s.phase = .idle) :
    hostOp (.write w) s = .next (applyWrite w s) := by
  simp [hostOp, hostWrite, h, (busy_eq_false_iff s).2 hi]

/-- A faulting read answers 0 (R215). -/
theorem hostOp_read_fault {s : State} {r : HostRead} {c : FaultCode} (h : readFault s.config r = some c) :
    hostOp (.read r) s = .next { hostFaulted c s with hostReads := s.hostReads ++ [0] } := by
  simp only [hostOp, hostRead, h, hostFault_eq]
  rfl

/-- A legal read of a value answers it and does nothing else. -/
theorem hostOp_read_value {s : State} {r : HostRead} {v : Word32} (h : readFault s.config r = none)
    (hv : readValue s r = some v) : hostOp (.read r) s = .next { s with hostReads := s.hostReads ++ [v] } := by
  simp only [hostOp, hostRead, h, hv]
  rfl

/-- A read never touches the held write (R62). -/
theorem held_of_hostOp_read {s t : State} {r : HostRead} (h : hostOp (.read r) s = .next t) : t.held = s.held := by
  change hostRead r s = _ at h
  rcases hostRead_cases r s with ⟨c, _, e⟩ | ⟨_, _, e⟩ | ⟨v, _, _, e⟩ <;> rw [e] at h <;> cases h <;> rfl

/-- With a write held, a busy machine's host turn passes (R62). -/
theorem hostTurn_held_busy {s : State} {w : HostWrite} (hh : s.held = some w) (hb : s.busy = true) :
    hostTurn s = .next s := by
  simp only [hostTurn, hh, hb, if_true]

/-- In IDLE the host's turn is the held write, issued with none held (R62). -/
theorem hostTurn_held_idle {s : State} {w : HostWrite} (hh : s.held = some w) (hi : s.phase = .idle) :
    hostTurn s = hostOp (.write w) { s with held := none } := by
  simp [hostTurn, hh, (busy_eq_false_iff s).2 hi, hostOp]

/-! #### Accesses that raise BUS -/

/-- An access that raises BUS whether it reads or writes. -/
def RaisesBus (c : Config) (width : Nat) (off : BitVec 12) : Prop :=
  readFault c ⟨width, off⟩ = some .bus ∧ ∀ v, writeFault c ⟨width, off, v⟩ = some .bus

/-- An access that raises BUS changes FAULT and FCODE only, and a read answers 0 (R215). -/
theorem RaisesBus.hostOp_eq {s : State} {width : Nat} {off : BitVec 12} (h : RaisesBus s.config width off) (v : Word32) :
    hostOp (.write ⟨width, off, v⟩) s = .next (hostFaulted .bus s) ∧
    hostOp (.read ⟨width, off⟩) s = .next { hostFaulted .bus s with hostReads := s.hostReads ++ [0] } := by
  obtain ⟨hread, hwrite⟩ := h
  exact ⟨hostOp_write_fault (hwrite v), hostOp_read_fault hread⟩

/-- A reserved offset raises BUS at every width (R59). -/
theorem raisesBus_of_reserved {c : Config} {off : BitVec 12} (width : Nat) (h : target c off = .reserved) :
    RaisesBus c width off := by
  simp [RaisesBus, readFault, writeFault, h]

/-- An FB access of a shape that R60 does not allow raises BUS. -/
theorem raisesBus_of_fbShape {c : Config} {width i : Nat} {off : BitVec 12} (h : target c off = .fb i)
    (hs : fbShapeOk c width i = false) : RaisesBus c width off := by
  simp [RaisesBus, readFault, writeFault, h, hs, busUnless]

/-- From 0x100 up, an access that is not 32 bits wide raises BUS (R60). -/
theorem raisesBus_of_width {c : Config} {width : Nat} {off : BitVec 12} (hoff : 0x100 ≤ off.toNat) (hw : width ≠ 32) :
    RaisesBus c width off := by
  cases h : target c off with
  | fb i =>
    have hbelow := h ▸ target_high c off hoff
    repeat' split at hbelow
    all_goals cases hbelow
  | _ => simp [RaisesBus, readFault, writeFault, h, hw, busUnless]

/-- The registers stand at the multiples of 4 from 0x100 to 0x10C; any other offset past FB is reserved (R54, R59). -/
theorem target_eq_reserved {c : Config} {off : BitVec 12} (hfb : c.fbSize.bytes ≤ off.toNat)
    (hreg : off.toNat < 0x100 ∨ 0x110 ≤ off.toNat ∨ off.toNat % 4 ≠ 0) : target c off = .reserved := by
  have ne (r : BitVec 12) (hr : 0x100 ≤ r.toNat ∧ r.toNat < 0x110 ∧ r.toNat % 4 = 0) : off ≠ r := by
    rintro rfl
    omega
  unfold target
  rw [if_neg hfb.not_gt, if_neg (ne _ (by decide)), if_neg (ne _ (by decide)), if_neg (ne _ (by decide)),
    if_neg (ne _ (by decide))]

/-- RES and STATUS take no write (R58). -/
theorem writeFault_readOnly (c : Config) (width : Nat) (v : Word32) {off : BitVec 12} (h : off = 0x108 ∨ off = 0x10C) :
    writeFault c ⟨width, off, v⟩ = some .bus := by
  rcases h with rfl | rfl <;> simp [writeFault]

/-- Settles O51: neither a read-only register nor a reserved offset has a legal access. -/
theorem readOnlyAndReservedOffsetsFault : Obligations.ReadOnlyAndReservedOffsetsFault := by
  intro s width off v
  refine ⟨fun h => hostOp_write_fault (writeFault_readOnly s.config width v h), fun h => ?_⟩
  have hsize := s.config.fbSize.ok
  have hreserved : target s.config off = .reserved := target_eq_reserved (by omega) (by omega)
  exact (raisesBus_of_reserved width hreserved).hostOp_eq v

/-- Settles O52: in FB the shape is wrong, and at the registers the width is, or the offset is reserved. -/
theorem illShapedAccessesFault : Obligations.IllShapedAccessesFault := by
  intro s width off v h
  refine RaisesBus.hostOp_eq ?_ v
  rcases h with ⟨hfb, h8, hshape⟩ | ⟨hlow, _, hw | halign⟩
  · refine raisesBus_of_fbShape (target_fb _ off hfb) ?_
    simp only [fbShapeOk, h8, decide_false, Bool.false_or, Bool.and_eq_false_iff, decide_eq_false_iff_not]
    exact .inl hshape
  · exact raisesBus_of_width hlow hw
  · have hsize := s.config.fbSize.ok
    exact raisesBus_of_reserved width (target_eq_reserved (by omega) (.inr (.inr halign)))

/-! #### Bits of a bus value, as arithmetic -/

/-- A field of a word, as the quotient that it is. -/
theorem extractLsb'_eq_ofNat {n : Nat} (x : BitVec n) (i k : Nat) :
    x.extractLsb' i k = .ofNat k (x.toNat / 2 ^ i) := by
  rw [← Nat.shiftRight_eq_div_pow]
  rfl

/-- Bytes put together, the last one lowest, are their sum. -/
theorem append_bytes_eq_ofNat (b0 b1 b2 b3 : Byte) :
    (b3 ++ b2 ++ b1 ++ b0 : Word32) =
      .ofNat 32 (b0.toNat + 2 ^ 8 * b1.toNat + 2 ^ 16 * b2.toNat + 2 ^ 24 * b3.toNat) := by
  apply BitVec.eq_of_toNat_eq
  simp only [toNat_append_eq, BitVec.toNat_ofNat]
  omega

/-! #### Accesses to FB -/

/-- What reads back after a word write: byte j of the value at i + j, and every other byte as it was (R53). -/
theorem readFb_writeWord (s : State) (i a : Nat) (v : Word32) :
    (writeWord s i v).readFb a =
      if i ≤ a ∧ a < i + 4 then some (.ofNat 8 (v.toNat / 2 ^ (8 * (a - i)))) else s.readFb a := by
  simp only [writeWord, readFb_writeFb, extractLsb'_eq_ofNat]
  by_cases h : i ≤ a ∧ a < i + 4
  · obtain ⟨j, rfl⟩ := Nat.exists_eq_add_of_le h.1
    have hj : j < 4 := by omega
    interval_cases j <;> simp
  · rw [if_neg h, if_neg (by omega), if_neg (by omega), if_neg (by omega), if_neg (by omega)]

/-- Settles O53: a byte access has a legal shape at every offset of FB. -/
theorem byteAccessToTheFrame : Obligations.ByteAccessToTheFrame := by
  intro s off hoff
  have ht := target_fb s.config off hoff
  refine ⟨fun v hi => ⟨s.writeFb off.toNat (.ofNat 8 v.toNat), ?_, ?_, fun a ha => ?_, rfl⟩, fun o ho => ?_⟩
  · refine (hostOp_write_idle (by simp [writeFault, ht, fbShapeOk, busUnless]) hi).trans ?_
    simp [applyWrite, ht, extractLsb'_eq_ofNat]
  · rw [readFb_writeFb, if_pos rfl]
  · rw [readFb_writeFb, if_neg ha]
  · exact hostOp_read_value (by simp [readFault, ht, fbShapeOk, busUnless]) (by simp [readValue, ht, ho])

/-- Settles O54: an aligned word inside FB has a legal shape, and its bytes are the word's quotients by powers of 256. -/
theorem wordAccessIsLittleEndian : Obligations.WordAccessIsLittleEndian := by
  intro s off halign hoff
  have ht := target_fb s.config off (by omega)
  refine ⟨fun v hi => ⟨writeWord s off.toNat v, ?_, fun j hj => ?_, fun a ha => ?_, rfl⟩,
    fun b0 b1 b2 b3 h0 h1 h2 h3 => ?_⟩
  · refine (hostOp_write_idle (by simp [writeFault, ht, fbShapeOk, busUnless, halign, hoff]) hi).trans ?_
    simp [applyWrite, ht]
  · rw [readFb_writeWord, if_pos (by omega), Nat.add_sub_cancel_left]
  · rw [readFb_writeWord, if_neg (by omega)]
  · rw [← append_bytes_eq_ofNat]
    refine hostOp_read_value (by simp [readFault, ht, fbShapeOk, busUnless, halign, hoff]) ?_
    simp [readValue, ht, readWord, h0, h1, h2, h3]

/-! #### Accesses to the registers -/

/-- Settles O47: FLEN's value check is the only one that a 32-bit access to 0x100 can fail. -/
theorem lengthRegisterAccess : Obligations.LengthRegisterAccess := by
  intro s v
  refine ⟨fun hv hi => ?_, fun hv => hostOp_write_fault ?_, hostOp_read_value ?_ ?_⟩
  · refine (hostOp_write_idle (by simp [writeFault, hv]) hi).trans ?_
    simp [applyWrite, extractLsb'_eq_ofNat]
  · simp [writeFault, hv.not_ge]
  · simp [readFault, busUnless]
  · simp [readValue]

/-- Bit 0 of STATUS is BUSY (R25). -/
theorem statusWord_getLsbD_zero (s : State) : (statusWord s).getLsbD 0 = s.busy := by
  rw [statusWord, BitVec.getLsbD_append, if_pos Nat.zero_lt_one]
  simp

/-- Settles O48: a 32-bit access to 0x104 is legal whatever the word. -/
theorem commandRegisterAccess : Obligations.CommandRegisterAccess := by
  intro s w
  have hlegal : writeFault s.config ⟨32, 0x104, w⟩ = none := by simp [writeFault, busUnless]
  refine ⟨fun hi => ?_, ?_, fun hi => ?_, hostOp_read_value ?_ ?_⟩
  · refine (hostOp_write_idle hlegal hi).trans ?_
    simp [applyWrite]
  · exact statusWord_getLsbD_zero _
  · exact hostOp_write_busy hlegal (Bool.eq_true_of_not_eq_false (mt (busy_eq_false_iff s).1 hi))
  · simp [readFault, busUnless]
  · simp [readValue]

/-- Settles O49: a legal register read answers the register's value and nothing else. -/
theorem resultAndStatusReads : Obligations.ResultAndStatusReads := by
  intro s
  constructor
  · exact hostOp_read_value (by simp [readFault, busUnless]) (by simp [readValue])
  · exact hostOp_read_value (by simp [readFault, busUnless]) (by simp [readValue])

/-! #### Held writes, and what a busy machine's step leaves unchanged -/

/-- Settles O55: the host turn that releases a held write is that write, issued with none held. -/
theorem writesAreHeldWhileBusy : Obligations.WritesAreHeldWhileBusy := by
  refine ⟨fun s w hb hf => hostOp_write_busy hf hb, fun s w hb hh => hostTurn_held_busy hh hb,
    fun s w hi hh hf => ?_, fun s w c hf => hostOp_write_fault hf, fun s t r h => held_of_hostOp_read h⟩
  have released : hostOp (.write w) { s with held := none } = .next (applyWrite w { s with held := none }) :=
    hostOp_write_idle hf hi
  exact ⟨(hostTurn_held_idle hh hi).trans released, released⟩

/-- `t` is `s` but for what a host access may change while the engine is busy: the held write, the host's queue and reads,
FAULT and FCODE. -/
def SameButHost (s t : State) : Prop :=
  { t with
    held := s.held, hostQueue := s.hostQueue, hostReads := s.hostReads, fault := s.fault, fcode := s.fcode } = s

/-- A busy machine's host operation takes no write's effect. -/
theorem sameButHost_of_hostOp {op : HostOp} {s t : State} (hb : s.busy = true) (h : hostOp op s = .next t) :
    SameButHost s t := by
  cases op with
  | read r =>
    change hostRead r s = _ at h
    rcases hostRead_cases r s with ⟨c, _, e⟩ | ⟨_, _, e⟩ | ⟨v, _, _, e⟩ <;> rw [e] at h <;> cases h <;> rfl
  | write w =>
    change hostWrite w s = _ at h
    rcases hostWrite_cases w s with ⟨c, _, e⟩ | ⟨_, _, e⟩ | ⟨_, hi, e⟩ <;> rw [e] at h <;> cases h
    · rfl
    · rfl
    · exact absurd (hb.symm.trans hi) nofun
  | wait =>
    simp only [hostOp, hb, if_true] at h
    cases h
    rfl

/-- A busy machine's host turn takes no write's effect. -/
theorem sameButHost_of_hostTurn {s t : State} (hb : s.busy = true) (h : hostTurn s = .next t) : SameButHost s t := by
  rcases hostTurn_cases s with ⟨w, _, _, e⟩ | ⟨w, _, hi, e⟩ | ⟨_, _, e⟩ | ⟨op, ops, _, _, e⟩ <;> rw [e] at h
  · cases h
    rfl
  · exact absurd (hb.symm.trans hi) nofun
  · cases h
    rfl
  · have hop : SameButHost { s with hostQueue := ops } t := sameButHost_of_hostOp hb h
    exact (congrArg (fun u : State => { u with hostQueue := s.hostQueue }) hop :)

/-- `t` has the frame length, the latch and, but for the octet of a SETBIT that CMDQ decodes to, the frame bytes of
`s`. -/
def FrameFixed (s t : State) : Prop :=
  t.flen = s.flen ∧ t.cmdq = s.cmdq ∧
    ∀ a, t.readFb a ≠ s.readFb a →
      ∃ b v, s.phase = .pending ∧ decodeCmd s.cmdq = .ok (.setbit b v) ∧ a = (octetOf s.config.params b).toNat

theorem FrameFixed.of_eq {s t : State} (hflen : t.flen = s.flen) (hcmdq : t.cmdq = s.cmdq) (hfb : t.fb = s.fb) :
    FrameFixed s t :=
  ⟨hflen, hcmdq, fun a ha => absurd (congrArg (Memory.read · a) hfb) ha⟩

theorem SameButHost.frameFixed {s t : State} (h : SameButHost s t) : FrameFixed s t :=
  .of_eq (congrArg State.flen h :) (congrArg State.cmdq h :) (congrArg State.fb h :)

/-- The engine's step writes of the frame the octet of a SETBIT only (R63). -/
theorem frameFixed_of_engineStep {s t : State} (h : engineStep s = .next t) : FrameFixed s t := by
  rcases engineStep_cases s with ⟨_, e⟩ | ⟨i, hp, hd, e⟩ | ⟨_, _, _, e⟩ | ⟨_, e⟩ <;> rw [e] at h
  · cases h
    exact .of_eq rfl rfl rfl
  · rcases exec_cases i s t h with
      ⟨c, rfl, _, _⟩ | ⟨_, v, rfl⟩ | ⟨b, v, o, rfl, _, _, rfl⟩ | ⟨_, rs, rfl, _⟩ | ⟨_, cls, rfl⟩
    case inr.inr.inl =>
      refine ⟨rfl, rfl, fun a ha => ⟨b, v, hp, hd, ?_⟩⟩
      by_contra hne
      exact ha ((readFb_writeFb s _ a _).trans (if_neg hne))
    all_goals exact .of_eq rfl rfl rfl
  · cases h
    exact .of_eq rfl rfl rfl
  · rcases walkStep_cases s with ⟨_, e⟩ | ⟨_, _, e⟩ | ⟨_, _, _, e⟩ | ⟨o, _, _, _, e⟩ | ⟨o, _, _, _, e⟩ <;>
      rw [e] at h <;> cases h <;> exact .of_eq rfl rfl rfl

/-- Settles O45: a busy machine's turn is the host's, which waits, or the engine's, which stores by SETBIT only. -/
theorem runningCommandSeesAFixedFrame : Obligations.RunningCommandSeesAFixedFrame := by
  intro s t hb hreset h
  obtain ⟨ts, ⟨e, _⟩ | ⟨e, _⟩ | ⟨_, hr⟩⟩ := step_cases s
  · exact (sameButHost_of_hostTurn (s := { s with schedule := ts }) hb (e.symm.trans h)).frameFixed
  · exact frameFixed_of_engineStep (s := { s with schedule := ts }) (e.symm.trans h)
  · exact absurd hr hreset

end Sys2Proof.Machine

/-! ### The command word, field by field

A command word is its five fields, side by side (R81). The should-be-zero bits of each row of the opcode map are fields
too, so decoding, encoding and the map's masks all come down to which fields are zero. -/

namespace Sys2Proof

open Laws (opcodeOf opField_packCmd aField_packCmd)

/-- Two concatenations are equal field by field. -/
theorem append_eq_append_iff {a b : Nat} {x x' : BitVec a} {y y' : BitVec b} :
    x ++ y = x' ++ y' ↔ x = x' ∧ y = y' := by
  constructor
  · intro h
    have high := congrArg (BitVec.extractLsb' b a) h
    have low := congrArg (BitVec.extractLsb' 0 b) h
    simp only [extract_append_high _ _ b a le_rfl, Nat.sub_self, extract_whole] at high
    simp only [extract_append_low _ _ 0 b (Nat.zero_add b).le, extract_whole] at low
    exact ⟨high, low⟩
  · rintro ⟨rfl, rfl⟩
    rfl

/-- A concatenation is zero when both its parts are. -/
theorem append_eq_zero_iff {a b : Nat} {x : BitVec a} {y : BitVec b} : x ++ y = 0#(a + b) ↔ x = 0 ∧ y = 0 := by
  rw [← BitVec.zero_append_zero, append_eq_append_iff]
  rfl

/-! #### A word and its fields -/

/-- The B field of a packed word. -/
@[simp] theorem bField_packCmd (op : BitVec 4) (a b d : BitVec 8) (t : BitVec 4) : bField (packCmd op a b d t) = b := by
  unfold bField packCmd
  rw [extract_append_high (h := by omega), extract_append_high (h := by omega), extract_append_low (h := by omega)]
  exact extract_whole b

/-- The D field of a packed word. -/
@[simp] theorem dField_packCmd (op : BitVec 4) (a b d : BitVec 8) (t : BitVec 4) : dField (packCmd op a b d t) = d := by
  unfold dField packCmd
  rw [extract_append_high (h := by omega), extract_append_low (h := by omega)]
  exact extract_whole d

/-- The T field of a packed word. -/
@[simp] theorem tField_packCmd (op : BitVec 4) (a b d : BitVec 8) (t : BitVec 4) : tField (packCmd op a b d t) = t := by
  unfold tField packCmd
  rw [extract_append_low (h := by omega)]
  exact extract_whole t

/-- Every word is its fields packed again (R81). -/
theorem packCmd_fields (w : Word32) : packCmd (opField w) (aField w) (bField w) (dField w) (tField w) = w := by
  unfold packCmd opField aField bField dField tField
  rw [BitVec.extractLsb'_append_extractLsb'_eq_extractLsb' (by rfl),
    BitVec.extractLsb'_append_extractLsb'_eq_extractLsb' (by rfl),
    BitVec.extractLsb'_append_extractLsb'_eq_extractLsb' (by rfl),
    BitVec.extractLsb'_append_extractLsb'_eq_extractLsb' (by rfl)]
  exact extract_whole w

/-- A word with the given fields is those fields packed. -/
theorem packCmd_eq_of_fields {w : Word32} {op : BitVec 4} {a b d : BitVec 8} {t : BitVec 4} (hop : opField w = op)
    (ha : aField w = a) (hb : bField w = b) (hd : dField w = d) (ht : tField w = t) : packCmd op a b d t = w := by
  subst hop ha hb hd ht
  exact packCmd_fields w

/-- Words are equal field by field. -/
theorem word_eq_iff_fields {w w' : Word32} :
    w = w' ↔ opField w = opField w' ∧ aField w = aField w' ∧ bField w = bField w' ∧ dField w = dField w' ∧
      tField w = tField w' := by
  constructor
  · rintro rfl
    exact ⟨rfl, rfl, rfl, rfl, rfl⟩
  · rintro ⟨hop, ha, hb, hd, ht⟩
    rw [← packCmd_fields w, hop, ha, hb, hd, ht, packCmd_fields]

/-- V is bit 0 of the T field (R81). -/
theorem vField_eq_tField_bit (w : Word32) : vField w = (tField w).extractLsb' 0 1 := by
  ext j hj
  simp [vField, tField, BitVec.getElem_extractLsb']

/-! #### The should-be-zero bits of each row (R84) -/

/-- A run of bits is zero when its high `k` bits and its low `m` bits are. -/
theorem extract_eq_zero_iff {n : Nat} (w : BitVec n) (i k m : Nat) :
    w.extractLsb' i (k + m) = 0 ↔ w.extractLsb' (i + m) k = 0 ∧ w.extractLsb' i m = 0 := by
  rw [← BitVec.extractLsb'_append_extractLsb'_eq_extractLsb' rfl]
  exact append_eq_zero_iff

/-- Bits 11:0, zero in GETFIELD's row. -/
@[simp] theorem low12_eq_zero_iff (w : Word32) : w.extractLsb' 0 12 = 0#12 ↔ dField w = 0 ∧ tField w = 0 :=
  extract_eq_zero_iff w 0 8 4

/-- Bits 19:0, zero in the rows of MAP and TESTBIT. -/
@[simp] theorem low20_eq_zero_iff (w : Word32) :
    w.extractLsb' 0 20 = 0#20 ↔ bField w = 0 ∧ dField w = 0 ∧ tField w = 0 :=
  (extract_eq_zero_iff w 0 8 12).trans (and_congr_right' (low12_eq_zero_iff w))

/-- Bits 27:0, zero in DECODE's row. -/
@[simp] theorem low28_eq_zero_iff (w : Word32) :
    w.extractLsb' 0 28 = 0#28 ↔ aField w = 0 ∧ bField w = 0 ∧ dField w = 0 ∧ tField w = 0 :=
  (extract_eq_zero_iff w 0 8 20).trans (and_congr_right' (low20_eq_zero_iff w))

/-- Bits 3:1 are the T field's, under SETBIT's mask (R83). -/
theorem bits3to1_eq_zero_iff (w : Word32) : w.extractLsb' 1 3 = 0 ↔ tField w &&& 0xE = 0 := by
  have slice : w.extractLsb' 1 3 = (tField w).extractLsb' 1 3 := by
    ext j hj
    simp [tField, BitVec.getElem_extractLsb']
  rw [slice]
  generalize tField w = t
  revert t
  decide

/-- Bits 19:1, zero in SETBIT's row. -/
@[simp] theorem bits19to1_eq_zero_iff (w : Word32) :
    w.extractLsb' 1 19 = 0#19 ↔ bField w = 0 ∧ dField w = 0 ∧ tField w &&& 0xE = 0 := by
  rw [← bits3to1_eq_zero_iff]
  exact (extract_eq_zero_iff w 1 8 11).trans (and_congr_right' (extract_eq_zero_iff w 1 8 3))

/-! #### Decoding and encoding -/

/-- The check of the should-be-zero bits passes the command on exactly when they are zero. -/
theorem whenZero_eq_ok_iff {z : Bool} {i j : Instr} : whenZero z i = .ok j ↔ z = true ∧ i = j := by
  cases z <;> simp [whenZero]

/-- Every command's word decodes to it: the row's should-be-zero fields are packed as zeros. -/
theorem decodeCmd_encode (i : Instr) : decodeCmd (encode i) = .ok i := by
  cases i with
  | setbit b v =>
    have bits : BitVec.setWidth 4 v &&& 14#4 = 0#4 ∧ (BitVec.setWidth 4 v).extractLsb' 0 1 = v := by
      revert v
      decide
    simp [decodeCmd, encode, whenZero_eq_ok_iff, opField_packCmd, aField_packCmd, vField_eq_tField_bit, bits]
  | _ => simp [decodeCmd, encode, whenZero_eq_ok_iff, opField_packCmd, aField_packCmd]

/-- The T field of SETBIT's row is V, zero-extended (R81). -/
theorem zeroExtend_vField {w : Word32} (h : tField w &&& 0xE = 0) : (vField w).zeroExtend 4 = tField w := by
  rw [vField_eq_tField_bit]
  generalize tField w = t at *
  revert t
  decide

/-- A word that decodes is the word of its command: every field that the command drops is zero. -/
theorem encode_of_decodeCmd {w : Word32} {i : Instr} (h : decodeCmd w = .ok i) : encode i = w := by
  unfold decodeCmd at h
  split_ifs at h with hmap htestbit hsetbit hgetfield hrsvchk hboolfld hcodedfld hdecode
  · obtain ⟨hz, rfl⟩ := whenZero_eq_ok_iff.1 h
    obtain ⟨hb, hd, ht⟩ := (low20_eq_zero_iff w).1 (of_decide_eq_true hz)
    exact packCmd_eq_of_fields hmap rfl hb hd ht
  · obtain ⟨hz, rfl⟩ := whenZero_eq_ok_iff.1 h
    obtain ⟨hb, hd, ht⟩ := (low20_eq_zero_iff w).1 (of_decide_eq_true hz)
    exact packCmd_eq_of_fields htestbit rfl hb hd ht
  · obtain ⟨hz, rfl⟩ := whenZero_eq_ok_iff.1 h
    obtain ⟨hb, hd, ht⟩ := (bits19to1_eq_zero_iff w).1 (of_decide_eq_true hz)
    exact packCmd_eq_of_fields hsetbit rfl hb hd (zeroExtend_vField ht).symm
  · obtain ⟨hz, rfl⟩ := whenZero_eq_ok_iff.1 h
    obtain ⟨hd, ht⟩ := (low12_eq_zero_iff w).1 (of_decide_eq_true hz)
    exact packCmd_eq_of_fields hgetfield rfl rfl hd ht
  · obtain ⟨hz, rfl⟩ := whenZero_eq_ok_iff.1 h
    obtain ⟨hb, ht⟩ : bField w = 0 ∧ tField w = 0 := by simpa using hz
    exact packCmd_eq_of_fields hrsvchk rfl hb rfl ht
  · obtain ⟨hz, rfl⟩ := whenZero_eq_ok_iff.1 h
    exact packCmd_eq_of_fields hboolfld rfl (of_decide_eq_true hz) rfl rfl
  · cases h
    exact packCmd_eq_of_fields hcodedfld rfl rfl rfl rfl
  · obtain ⟨hz, rfl⟩ := whenZero_eq_ok_iff.1 h
    obtain ⟨ha, hb, hd, ht⟩ := (low28_eq_zero_iff w).1 (of_decide_eq_true hz)
    exact packCmd_eq_of_fields hdecode ha hb hd ht

/-- A word means exactly the command whose word it is (R83, R87). -/
theorem decodeCmd_eq_ok_iff {w : Word32} {i : Instr} : decodeCmd w = .ok i ↔ encode i = w :=
  ⟨encode_of_decodeCmd, fun h => h ▸ decodeCmd_encode i⟩

/-- OP of a command's word. -/
theorem opField_encode (i : Instr) : opField (encode i) = opcodeOf i := by
  cases i <;> exact opField_packCmd ..

/-! #### The rows of the opcode map

Masking a word masks each of its fields. -/

theorem opField_and (w m : Word32) : opField (w &&& m) = opField w &&& opField m := BitVec.extractLsb'_and
theorem aField_and (w m : Word32) : aField (w &&& m) = aField w &&& aField m := BitVec.extractLsb'_and
theorem bField_and (w m : Word32) : bField (w &&& m) = bField w &&& bField m := BitVec.extractLsb'_and
theorem dField_and (w m : Word32) : dField (w &&& m) = dField w &&& dField m := BitVec.extractLsb'_and
theorem tField_and (w m : Word32) : tField (w &&& m) = tField w &&& tField m := BitVec.extractLsb'_and

/-- The opcode map by fields: a row matches OP, and masks the fields that its command does not use (R83, R84). -/
theorem opcodeMap_eq_packCmd :
    opcodeMap =
      [⟨packCmd 0x1 0 0 0 0, packCmd 0xF 0 0xFF 0xFF 0xF⟩, ⟨packCmd 0x2 0 0 0 0, packCmd 0xF 0 0xFF 0xFF 0xF⟩,
       ⟨packCmd 0x3 0 0 0 0, packCmd 0xF 0 0xFF 0xFF 0xE⟩, ⟨packCmd 0x4 0 0 0 0, packCmd 0xF 0 0 0xFF 0xF⟩,
       ⟨packCmd 0x5 0 0 0 0, packCmd 0xF 0 0xFF 0 0xF⟩, ⟨packCmd 0x6 0 0 0 0, packCmd 0xF 0 0xFF 0 0⟩,
       ⟨packCmd 0x7 0 0 0 0, packCmd 0xF 0 0 0 0⟩, ⟨packCmd 0x8 0 0 0 0, packCmd 0xF 0xFF 0xFF 0xFF 0xF⟩] := by
  decide

/-- A row selects a word when OP matches and the masked fields are zero. -/
theorem selects_packCmd_iff (w : Word32) (op : BitVec 4) (a b d : BitVec 8) (t : BitVec 4) :
    OpcodeRow.selects ⟨packCmd op 0 0 0 0, packCmd 0xF a b d t⟩ w = true ↔
      opField w = op ∧ aField w &&& a = 0 ∧ bField w &&& b = 0 ∧ dField w &&& d = 0 ∧ tField w &&& t = 0 := by
  have hop : opField w &&& 0xF = opField w := BitVec.and_allOnes
  simp only [OpcodeRow.selects, decide_eq_true_eq, word_eq_iff_fields, opField_and, aField_and, bField_and, dField_and,
    tField_and, opField_packCmd, aField_packCmd, bField_packCmd, dField_packCmd, tField_packCmd, hop]

/-- A row selects exactly the words of its OP that decode: once OP is the row's, the decoder's branch checks the very
fields that the row masks (R83, R84). -/
theorem selects_iff_decodes {r : OpcodeRow} (hr : r ∈ opcodeMap) (w : Word32) :
    r.selects w = true ↔ opField w = opField r.matchBits ∧ ∃ i, decodeCmd w = .ok i := by
  have full8 (x : BitVec 8) : x &&& 255#8 = x := BitVec.and_allOnes
  have full4 (x : BitVec 4) : x &&& 15#4 = x := BitVec.and_allOnes
  rw [opcodeMap_eq_packCmd] at hr
  simp only [List.mem_cons, List.not_mem_nil, or_false] at hr
  rcases hr with rfl | rfl | rfl | rfl | rfl | rfl | rfl | rfl
  all_goals
    rw [selects_packCmd_iff, opField_packCmd]
    refine and_congr_right fun hop => ?_
    simp [decodeCmd, hop, whenZero_eq_ok_iff, full8, full4]

/-- No row of the map fixes a bit outside OP. -/
theorem matchBits_low_eq_zero {r : OpcodeRow} (hr : r ∈ opcodeMap) : r.matchBits &&& 0x0FFFFFFF = 0 := by
  revert r
  decide

/-- Exactly one row of the map has the OP of a command. -/
theorem length_rowsOf_opcodeOf (i : Instr) :
    (opcodeMap.filter fun r => opcodeOf i = opField r.matchBits).length = 1 := by
  cases i <;> rfl

/-- Exactly one row selects a word that decodes (R83). -/
theorem length_selecting_of_decodes {w : Word32} {i : Instr} (h : decodeCmd w = .ok i) :
    (opcodeMap.filter (·.selects w)).length = 1 := by
  have rows : opcodeMap.filter (·.selects w) = opcodeMap.filter fun r => opcodeOf i = opField r.matchBits := by
    refine List.filter_congr fun r hr => ?_
    rw [Bool.eq_iff_iff, selects_iff_decodes hr, decide_eq_true_iff, ← opField_encode, encode_of_decodeCmd h]
    exact and_iff_left ⟨i, h⟩
  rw [rows, length_rowsOf_opcodeOf]

/-- No row selects a word that does not decode (R83, R87). -/
theorem length_selecting_of_error {w : Word32} {e : DecodeError} (h : decodeCmd w = .error e) :
    (opcodeMap.filter (·.selects w)).length = 0 := by
  rw [List.length_eq_zero_iff, List.filter_eq_nil_iff]
  intro r hr hsel
  obtain ⟨_, i, hok⟩ := (selects_iff_decodes hr w).1 hsel
  cases h.symm.trans hok

/-- A word that decodes has an OP of the map, 0x1 to 0x8 (R85). -/
theorem opField_range_of_decodes {w : Word32} {i : Instr} (h : decodeCmd w = .ok i) :
    1 ≤ (opField w).toNat ∧ (opField w).toNat ≤ 8 := by
  rw [← encode_of_decodeCmd h, opField_encode]
  cases i <;> simp [opcodeOf]

/-- A word that decodes has no should-be-zero bit of its row set (R84). -/
theorem sbz_eq_zero_of_decodes {w : Word32} {i : Instr} (h : decodeCmd w = .ok i) {r : OpcodeRow} (hr : r ∈ opcodeMap)
    (hop : opField r.matchBits = opField w) : w &&& r.maskBits &&& 0x0FFFFFFF = 0 := by
  have hsel : r.selects w = true := (selects_iff_decodes hr w).2 ⟨hop.symm, i, h⟩
  rw [of_decide_eq_true hsel, matchBits_low_eq_zero hr]

/-! #### The statements on encoding and decoding -/

/-- Settles O4, row by row: each field reads back from the packed word. -/
theorem encodedCommandDecodesToItself : Obligations.EncodedCommandDecodesToItself := decodeCmd_encode

/-- Settles O5, row by row: a field that is no operand is zero in a word that decodes. -/
theorem decodedWordIsTheCommandsWord : Obligations.DecodedWordIsTheCommandsWord := fun _ _ => encode_of_decodeCmd

/-- Settles O7: each word is the word of its command. -/
theorem sampleWordsDecode : Obligations.SampleWordsDecode := by
  simp only [Obligations.SampleWordsDecode, decodeCmd_eq_ok_iff]
  decide

/-- Settles O3: the placed word is latched in PENDING, with the engine's turn next. -/
theorem placedCommandRunsNext : Obligations.PlacedCommandRunsNext := by
  intro i s
  have word : commandWord 32 (encode i).toNat = encode i := by
    rw [commandWord, Nat.mod_eq_of_lt (encode i).isLt, BitVec.ofNat_toNat, BitVec.setWidth_eq]
  have decodes : decodeCmd (commandWord 32 (encode i).toNat) = .ok i := word.symm ▸ decodeCmd_encode i
  obtain ⟨runs, _⟩ := Machine.pendingStepRunsTheDecodedCommand i (s.withFetchWord 32 (encode i).toNat) rfl decodes
  exact ⟨by rw [decodeTableWord, decodes]; rfl, runs rfl⟩

/-- Settles O6: a word that selects a row decodes, and of the words that decode none has a cause of R84 or R85. -/
theorem illegalWordsRaiseIllegalCmd : Obligations.IllegalWordsRaiseIllegalCmd := by
  refine ⟨fun w => ?_, fun s hp cause => ?_⟩
  · cases h : decodeCmd w with
    | ok i => exact .inl ⟨length_selecting_of_decodes h, i, rfl⟩
    | error e => exact .inr ⟨length_selecting_of_error h, e, rfl⟩
  · rcases Machine.engineStep_cases s with ⟨hidle, _⟩ | ⟨i, _, hd, _⟩ | ⟨_, _, _, e⟩ | ⟨hwalk, _⟩
    · cases hp.symm.trans hidle
    · obtain ⟨hlow, hhigh⟩ := opField_range_of_decodes hd
      rcases cause with h0 | h9 | ⟨r, hr, hop, hsbz⟩
      · simp [h0] at hlow
      · omega
      · exact absurd (sbz_eq_zero_of_decodes hd hr hop) hsbz
    · exact e
    · cases hp.symm.trans hwalk

/-- A packed word, as the sum of its fields (R81). -/
theorem toNat_packCmd (op : BitVec 4) (a b d : BitVec 8) (t : BitVec 4) :
    (packCmd op a b d t).toNat =
      op.toNat * 2 ^ 28 + a.toNat * 2 ^ 20 + b.toNat * 2 ^ 12 + d.toNat * 2 ^ 4 + t.toNat := by
  simp only [packCmd, toNat_append_eq]
  omega

/-- Settles O8: the fields that a command does not use count zero. -/
theorem commandWordIsTheSumOfItsFields : Obligations.CommandWordIsTheSumOfItsFields := by
  intro b sb eb v d lp tt
  have hv : (v.zeroExtend 4).toNat = v.toNat := BitVec.toNat_setWidth_of_le (by decide)
  simp [encode, toNat_packCmd, hv, -BitVec.toNat_setWidth]

end Sys2Proof

/-! ### Pseudo-instructions -/

namespace Sys2Proof

/-- The last bit of a capability octet fits an operand's 8 bits. -/
theorem octetHi_lt {p : Params} {i : Nat} (h : i ≤ p.lastOctet) : Machine.octetHi p i < 2 ^ 8 := by
  obtain ⟨_, ⟨hfirst, _⟩, ⟨hend, h31⟩, _⟩ := p.ok
  unfold Machine.octetHi
  omega

/-- A range whose ends fit their fields is assembled as it stands (R88). -/
theorem toInstr_getfield (p : Params) {sb eb : Nat} (hs : sb < 2 ^ 8) (he : eb < 2 ^ 8) :
    (Source.getfield sb eb).toInstr p = some (.getfield (.ofNat 8 sb) (.ofNat 8 eb)) := by
  simp only [Source.toInstr, Source.wellFormed, fitsField, hs, he]
  rfl

/-- `getoctet` of a capability octet is `getfield` of the octet's first and last bit, and is not refused (R89). -/
theorem assemble_getoctet {p : Params} {i : Nat} (hfirst : p.firstOctet ≤ i) (hlast : i ≤ p.lastOctet) :
    (Source.getoctet i).assemble p =
      (Source.getfield (8 * (i - p.firstOctet) + 1) (8 * (i - p.firstOctet) + 8)).assemble p ∧
    ((Source.getoctet i).assemble p).isSome = true := by
  have hhi : 8 * (i - p.firstOctet) + 8 < 2 ^ 8 := octetHi_lt hlast
  have hfield := toInstr_getfield p (show 8 * (i - p.firstOctet) + 1 < 2 ^ 8 by omega) hhi
  have hoctet : (Source.getoctet i).toInstr p =
      (Source.getfield (8 * (i - p.firstOctet) + 1) (8 * (i - p.firstOctet) + 8)).toInstr p := by
    rw [hfield]
    simp [Source.toInstr, Source.wellFormed, hfirst, hlast]
  rw [Source.assemble, Source.assemble, hoctet, hfield]
  exact ⟨rfl, rfl⟩

/-- `getoctet` of any other octet is refused (R89). -/
theorem assemble_getoctet_outside {p : Params} {i : Nat} (h : i < p.firstOctet ∨ p.lastOctet < i) :
    (Source.getoctet i).assemble p = none := by
  have hwf : (Source.getoctet i).wellFormed p = false := by
    simp only [Source.wellFormed, Bool.and_eq_false_iff, decide_eq_false_iff_not]
    omega
  simp [Source.assemble, Source.toInstr, hwf]

namespace Machine

/-- A range of one bit has BIT_RANGE as its only operand fault. -/
theorem rangeFault_self (p : Params) (b : BitNum) : rangeFault p b b = bitFault p b := by
  have hlt : ¬ b < b := Nat.lt_irrefl b.toNat
  cases h : bitInRange p b <;> simp [rangeFault, bitFault, h, hlt]

/-- The field of one bit is that bit (R111, R113). -/
theorem fieldValue_self (o : Byte) (b : BitNum) : fieldValue o b b = (bitValue o b).zeroExtend 8 := by
  have hone : BitVec.ofNat 8 (2 ^ (b.toNat - b.toNat + 1) - 1) = 1#8 := by simp
  rw [fieldValue, hone, bitValue]
  ext j hj
  cases j <;> simp

/-- A one-bit command that answers a state with ERR clear has read its octet. -/
theorem octet_read_of_no_error {b : BitNum} {s t : State} {k : Byte → Result}
    (h : unlessFault (bitFault s.config.params b) s (withTarget b s k) = .next t) (ht : t.err = false) :
    ∃ o, s.readFb (octetOf s.config.params b).toNat = some o ∧ k o = .next t := by
  rcases unlessFault_next h with ⟨c, _, rfl⟩ | ⟨_, h⟩
  · cases ht
  · rcases withTarget_next h with rfl | ⟨o, ⟨_, hread⟩, hk⟩
    · cases ht
    · exact ⟨o, hread, hk⟩

/-- `getfield b, b` leaves the RES of `testbit b` when neither faults (R89). -/
theorem res_getfield_self_eq_testbit {b : BitNum} {s t u : State} (ht : exec (.getfield b b) s = .next t)
    (hu : exec (.testbit b) s = .next u) (hterr : t.err = false) (huerr : u.err = false) : t.res = u.res := by
  change unlessFault (rangeFault s.config.params b b) s _ = _ at ht
  rw [rangeFault_self] at ht
  obtain ⟨o, ho, hcompleteT⟩ := octet_read_of_no_error ht hterr
  obtain ⟨o', ho', hcompleteU⟩ := octet_read_of_no_error hu huerr
  obtain rfl : o = o' := Option.some.inj (ho.symm.trans ho')
  cases hcompleteT
  cases hcompleteU
  simp [fieldValue_self]

end Machine

/-- Settles O9: a pseudo-instruction and its expansion are refused alike, or stand for the same command. -/
theorem pseudoInstructionsExpand : Obligations.PseudoInstructionsExpand := by
  refine ⟨fun p b => ?_, fun p b => ?_, fun p b d => ?_, fun p i => assemble_getoctet,
    fun p i => assemble_getoctet_outside, fun i h3 h18 => (assemble_getoctet (p := {}) h3 h18).1,
    fun b s t u => Machine.res_getfield_self_eq_testbit⟩ <;>
    refine congrArg (Option.map encode) ?_
  · simp [Source.toInstr, Source.wellFormed, fitsField]
  · cases h : fitsField 8 b <;> simp [Source.toInstr, Source.wellFormed, h]
  · simp [Source.toInstr, Source.wellFormed, fitsField]

end Sys2Proof

/-! ### The record word, field by field

Each field reads back from the concatenation of R95, as KIND and bits 7:1 do (`recKind_mkRec`, `recZero_mkRec`). -/

namespace Sys2Proof.Machine

section

variable (k : RecordKind) (d s e v t o : Byte) (a : BitVec 4) (cls : FrameClass)

theorem recDesc_mkRec : recDesc (mkRec k d s e v t o a cls) = d := by
  simp (disch := omega) only [recDesc, mkRec, extract_append_high, extract_append_low]
  exact extract_whole d

theorem recStart_mkRec : recStart (mkRec k d s e v t o a cls) = s := by
  simp (disch := omega) only [recStart, mkRec, extract_append_high, extract_append_low]
  exact extract_whole s

theorem recEnd_mkRec : recEnd (mkRec k d s e v t o a cls) = e := by
  simp (disch := omega) only [recEnd, mkRec, extract_append_high, extract_append_low]
  exact extract_whole e

theorem recValue_mkRec : recValue (mkRec k d s e v t o a cls) = v := by
  simp (disch := omega) only [recValue, mkRec, extract_append_high, extract_append_low]
  exact extract_whole v

theorem recTag_mkRec : recTag (mkRec k d s e v t o a cls) = t := by
  simp (disch := omega) only [recTag, mkRec, extract_append_high, extract_append_low]
  exact extract_whole t

theorem recOctet_mkRec : recOctet (mkRec k d s e v t o a cls) = o := by
  simp (disch := omega) only [recOctet, mkRec, extract_append_high, extract_append_low]
  exact extract_whole o

theorem recAux_mkRec : recAux (mkRec k d s e v t o a cls) = a := by
  simp (disch := omega) only [recAux, mkRec, extract_append_high, extract_append_low]
  exact extract_whole a

theorem recCls_mkRec : recCls (mkRec k d s e v t o a cls) = cls.bit := by
  simp (disch := omega) only [recCls, mkRec, extract_append_low]
  exact extract_whole cls.bit

/-- A consumer finds the kind that the record was made with (R92). -/
theorem kindOf_mkRec : kindOf (mkRec k d s e v t o a cls) = some k := by
  unfold kindOf
  rw [recKind_mkRec]
  cases k <;> rfl

/-- A record word, as the sum of its fields (R95). -/
theorem toNat_mkRec :
    (mkRec k d s e v t o a cls).toNat =
      k.code.toNat * 2 ^ 60 + d.toNat * 2 ^ 52 + s.toNat * 2 ^ 44 + e.toNat * 2 ^ 36 + v.toNat * 2 ^ 28
        + t.toNat * 2 ^ 20 + o.toNat * 2 ^ 12 + a.toNat * 2 ^ 8 + cls.bit.toNat := by
  simp only [mkRec, toNat_append_eq, BitVec.toNat_ofNat]
  omega

end

/-- Settles O20: the word is a concatenation, so each field reads back and counts with the widths below it. -/
theorem recordWordHoldsItsFields : Obligations.RecordWordHoldsItsFields := by
  intro k d sb eb v tag oct aux cls
  exact ⟨toNat_mkRec .., kindOf_mkRec .., recDesc_mkRec .., recStart_mkRec .., recEnd_mkRec .., recValue_mkRec ..,
    recTag_mkRec .., recOctet_mkRec .., recAux_mkRec .., recZero_mkRec .., recCls_mkRec ..⟩

end Sys2Proof.Machine

/-! ### The host's next operation -/

namespace Sys2Proof.Machine

/-- With no write held the host's turn is its next operation (R26). -/
theorem hostTurn_queue {s : State} {op : HostOp} {ops : List HostOp} (hh : s.held = none)
    (hq : s.hostQueue = op :: ops) : hostTurn s = hostOp op { s with hostQueue := ops } := by
  simp only [hostTurn, hh, hq]

/-- Settles O46: the turn is the host's, and no held write comes first. -/
theorem hostTurnIssuesTheNextOperation : Obligations.HostTurnIssuesTheNextOperation := by
  intro s op ops hh hq
  constructor
  · intro ts hs
    have turn : step s = hostTurn { s with schedule := ts } := by simp only [step, takeTurn, hs]
    exact turn.trans (hostTurn_queue hh hq)
  · intro hs hp
    have turn : step s = hostTurn s := by simp [step, takeTurn, hs, (busy_eq_false_iff s).2 hp]
    exact turn.trans (hostTurn_queue hh hq)

/-- Settles O57: `wait` goes back to the head of the queue while BUSY. -/
theorem waitPollsUntilIdle : Obligations.WaitPollsUntilIdle := by
  intro s ops hh hq
  rw [hostTurn_queue hh hq]
  constructor
  · intro hb
    have hb' : ({ s with hostQueue := ops } : State).busy = true := hb
    simp only [hostOp, hb', if_true, State.answer, ← hq]
    rfl
  · intro hb
    have hb' : ({ s with hostQueue := ops } : State).busy = false := hb
    simp only [hostOp, hb', State.answer]
    rfl

end Sys2Proof.Machine

/-! ### The bit mapping and the value of a field

R110's bit operations as the arithmetic of `octetIndex` and `bitPosition`, and R111's mask as a remainder. -/

namespace Sys2Proof.Machine

/-! #### The bit number as octet and bit -/

/-- Legal bit numbers start at 1. -/
theorem one_le_of_legalBit {p : Params} {b : BitNum} (h : legalBit p b) : 1 ≤ b.toNat := by
  obtain ⟨⟨hmin, _⟩, _⟩ := p.ok
  exact hmin.trans h.1

theorem bitPosition_lt (b : BitNum) : bitPosition b < 8 := Nat.mod_lt _ (by decide)

/-- From bit number 1 on, R110's mask is the remainder by 8. -/
theorem bitOf_toNat {b : BitNum} (h : 1 ≤ b.toNat) : (bitOf b).toNat = bitPosition b := by
  have hsub : (b - 1).toNat = b.toNat - 1 := BitVec.toNat_sub_of_le (BitVec.le_def.2 h)
  have hmask : (b.toNat - 1) &&& 7 = (b.toNat - 1) % 8 := Nat.and_two_pow_sub_one_eq_mod _ 3
  rw [bitOf, BitVec.extractLsb'_toNat, BitVec.toNat_and, hsub]
  simp [hmask, bitPosition]

/-- The inverse of the mapping (R117). -/
theorem toNat_eq_octetIndex_bitPosition (p : Params) {b : BitNum} (h : 1 ≤ b.toNat) :
    b.toNat = 8 * (octetIndex p b - p.firstOctet) + bitPosition b + 1 := by
  unfold octetIndex bitPosition
  omega

/-- The octet and bit that R117's inverse names are those of its bit number. -/
theorem octetIndex_bitPosition_of_toNat_eq {p : Params} {b : BitNum} {o k : Nat} (ho : p.firstOctet ≤ o) (hk : k ≤ 7)
    (hb : b.toNat = 8 * (o - p.firstOctet) + k + 1) : octetIndex p b = o ∧ bitPosition b = k := by
  unfold octetIndex bitPosition
  omega

/-- The mapping is injective on the legal bit numbers (R117). -/
theorem eq_of_octetOf_eq_of_bitOf_eq {p : Params} {b b' : BitNum} (hb : legalBit p b) (hb' : legalBit p b')
    (ho : octetOf p b = octetOf p b') (hk : bitOf b = bitOf b') : b = b' := by
  have h1 := one_le_of_legalBit hb
  have h1' := one_le_of_legalBit hb'
  have hindex : octetIndex p b = octetIndex p b' := by rw [← octetOf_toNat hb, ho, octetOf_toNat hb']
  have hposition : bitPosition b = bitPosition b' := by rw [← bitOf_toNat h1, hk, bitOf_toNat h1']
  apply BitVec.eq_of_toNat_eq
  rw [toNat_eq_octetIndex_bitPosition p h1, hindex, hposition, ← toNat_eq_octetIndex_bitPosition p h1']

/-- Settles O10: R110's bit operations are its arithmetic, and the octet is a capability octet. -/
theorem bitNumbersMapToOctetAndBit : Obligations.BitNumbersMapToOctetAndBit := by
  constructor
  · intro p b hb
    rw [octetOf_toNat hb, bitOf_toNat (one_le_of_legalBit hb)]
    obtain ⟨hfirst, hlast⟩ := octetIndex_mem_capabilityOctets hb
    exact ⟨rfl, rfl, hfirst, hlast, Nat.le_of_lt_succ (bitPosition_lt b)⟩
  · intro b h1 h128
    have hb : legalBit {} b := ⟨h1, h128⟩
    rw [octetOf_toNat hb]
    exact ⟨rfl, octetIndex_mem_capabilityOctets hb⟩

/-- Settles O11: octet and bit give the bit number back, and every pair of them comes from one. -/
theorem bitMappingIsABijection : Obligations.BitMappingIsABijection := by
  refine ⟨fun p b b' => eq_of_octetOf_eq_of_bitOf_eq, fun p b o k hb ho hk e => ?_, fun o k h3 h18 hk => ?_,
    fun b k h1 h128 _ _ => ?_⟩
  · rw [octetOf_toNat hb, bitOf_toNat (one_le_of_legalBit hb)]
    exact octetIndex_bitPosition_of_toNat_eq ho hk e
  · have e : (BitVec.ofNat 8 (8 * (o - 3) + k + 1)).toNat = 8 * (o - 3) + k + 1 :=
      (BitVec.toNat_ofNat ..).trans (Nat.mod_eq_of_lt (by omega))
    have hb : legalBit {} (BitVec.ofNat 8 (8 * (o - 3) + k + 1)) := by
      show 1 ≤ _ ∧ _ ≤ 128
      omega
    refine ⟨_, hb.1, hb.2, e, ?_⟩
    rw [octetOf_toNat hb, bitOf_toNat hb.1]
    exact octetIndex_bitPosition_of_toNat_eq (p := {}) h3 hk e
  · have hb : legalBit {} b := ⟨h1, h128⟩
    have hindex : octetIndex {} b = (b.toNat - 1) / 8 + 3 := rfl
    rw [octetOf_toNat hb, hindex]
    omega

/-! #### The field of a range in one octet -/

/-- Within a legal range, bit positions rise with the bit numbers: no bit number of it lies in another octet. -/
theorem bitPosition_add {p : Params} {sb eb : BitNum} (h : legalRange p sb eb) {j : Nat}
    (hj : j < eb.toNat - sb.toNat + 1) :
    bitPosition (.ofNat 8 (sb.toNat + j)) = bitPosition sb + j ∧ bitPosition sb + j ≤ 7 := by
  obtain ⟨hs, he, hle, hoctet⟩ := h
  have h1 := one_le_of_legalBit hs
  have hnum : (BitVec.ofNat 8 (sb.toNat + j)).toNat = sb.toNat + j :=
    (BitVec.toNat_ofNat ..).trans (Nat.mod_eq_of_lt (by omega))
  unfold octetIndex at hoctet
  rw [bitPosition, bitPosition, hnum]
  omega

/-- The width of a legal range fits an octet (R111). -/
theorem width_le_of_legalRange {p : Params} {sb eb : BitNum} (h : legalRange p sb eb) :
    eb.toNat - sb.toNat + 1 ≤ 8 := by
  obtain ⟨_, hlast⟩ := bitPosition_add h (Nat.lt_succ_self (eb.toNat - sb.toNat))
  omega

/-- R111's shift and mask as division and remainder. -/
theorem fieldValue_toNat {p : Params} {sb eb : BitNum} (h : legalRange p sb eb) (o : Byte) :
    (fieldValue o sb eb).toNat = o.toNat / 2 ^ bitPosition sb % 2 ^ (eb.toNat - sb.toNat + 1) := by
  have hpow : 2 ^ (eb.toNat - sb.toNat + 1) ≤ 2 ^ 8 := Nat.pow_le_pow_right (by decide) (width_le_of_legalRange h)
  have hmask : (BitVec.ofNat 8 (2 ^ (eb.toNat - sb.toNat + 1) - 1)).toNat = 2 ^ (eb.toNat - sb.toNat + 1) - 1 :=
    (BitVec.toNat_ofNat ..).trans (Nat.mod_eq_of_lt (by omega))
  rw [fieldValue, BitVec.toNat_and, hmask, Nat.and_two_pow_sub_one_eq_mod, BitVec.toNat_ushiftRight,
    Nat.shiftRight_eq_div_pow, bitOf_toNat (one_le_of_legalBit h.1)]

/-- The bits of a field: those of the octet from the range's first bit on, as many as the range has. -/
theorem fieldValue_getLsbD {p : Params} {sb eb : BitNum} (h : legalRange p sb eb) (o : Byte) (j : Nat) :
    (fieldValue o sb eb).getLsbD j =
      (decide (j < eb.toNat - sb.toNat + 1) && o.getLsbD (bitPosition sb + j)) := by
  rw [BitVec.getLsbD, fieldValue_toNat h, Nat.testBit_mod_two_pow, Nat.testBit_div_two_pow, BitVec.getLsbD,
    Nat.add_comm j]

/-- Settles O12: bit by bit, each bit position being the range's first plus j. -/
theorem fieldValueIsTheRangesBits : Obligations.FieldValueIsTheRangesBits := by
  intro p o sb eb h
  refine ⟨Nat.le_add_left 1 _, width_le_of_legalRange h, fieldValue_toNat h o, fun j hj => ?_, fun j hj => ?_⟩
  · simp [fieldValue_getLsbD h, hj, (bitPosition_add h hj).1]
  · simp [fieldValue_getLsbD h, Nat.not_lt.2 hj]

end Sys2Proof.Machine

/-! ### The bitfield commands

Where the operand checks pass and the octet is present, a command is its effect and then its completion; each command's next
state is said once, in the model's own operations. -/

namespace Sys2Proof.Machine

/-! #### Completion -/

/-- `octetHolds` at the octet index is `octetHolds` at the address the model computes. -/
theorem octetHolds_octetOf {s : State} {b : BitNum} {o : Byte} (hb : legalBit s.config.params b)
    (ho : octetHolds s (octetIndex s.config.params b) o) : octetHolds s (octetOf s.config.params b).toNat o := by
  rwa [octetOf_toNat hb]

/-- A one-bit command on a legal bit number in a written octet of the frame hands that octet on. -/
theorem oneBitCommand_present {s : State} {b : BitNum} {o : Byte} (hb : legalBit s.config.params b)
    (ho : octetHolds s (octetOf s.config.params b).toNat o) (k : Byte → Result) :
    unlessFault (bitFault s.config.params b) s (withTarget b s k) = k o := by
  rw [(bitFault_eq_none _ b).2 hb, unlessFault_none, withTarget_present b s k o ho]

/-- The operand checks of a range command pass on a legal range. -/
theorem rangeFault_eq_none {p : Params} {sb eb : BitNum} (h : legalRange p sb eb) : rangeFault p sb eb = none := by
  obtain ⟨hs, he, hle, hoctet⟩ := h
  have hspan : octetOf p sb = octetOf p eb := by
    apply BitVec.eq_of_toNat_eq
    rw [octetOf_toNat hs, octetOf_toNat he, hoctet]
  have horder : ¬ eb < sb := by simpa [BitVec.lt_def] using hle
  simp [rangeFault, bitInRange, hs, he, horder, hspan]

theorem exec_map_legal {b : BitNum} {s : State} (hb : legalBit s.config.params b) :
    exec (.map b) s = .next (completed (s.setRes (mapResult s.config.params b))) := by
  change unlessFault (bitFault s.config.params b) s _ = _
  rw [(bitFault_eq_none _ b).2 hb]
  rfl

theorem exec_testbit_present {b : BitNum} {s : State} {o : Byte} (hb : legalBit s.config.params b)
    (ho : octetHolds s (octetOf s.config.params b).toNat o) :
    exec (.testbit b) s = .next (completed (s.setRes ((bitValue o b).zeroExtend 32))) :=
  oneBitCommand_present hb ho _

theorem exec_setbit_present {b : BitNum} {s : State} {o : Byte} (hb : legalBit s.config.params b)
    (ho : octetHolds s (octetOf s.config.params b).toNat o) (v : BitVec 1) :
    exec (.setbit b v) s = .next (completed (s.writeFb (octetOf s.config.params b).toNat (withBit o b v))) :=
  oneBitCommand_present hb ho _

theorem exec_getfield_present {sb eb : BitNum} {s : State} {o : Byte} (h : legalRange s.config.params sb eb)
    (ho : octetHolds s (octetOf s.config.params sb).toNat o) :
    exec (.getfield sb eb) s = .next (completed (s.setRes ((fieldValue o sb eb).zeroExtend 32))) := by
  change unlessFault (rangeFault s.config.params sb eb) s _ = _
  rw [rangeFault_eq_none h, unlessFault_none, withTarget_present sb s _ o ho]
  rfl

/-! #### Results as arithmetic -/

/-- RES of MAP: the bit stands above the 8 bits of the octet (R90). -/
theorem mapResult_eq_ofNat {p : Params} {b : BitNum} (hb : legalBit p b) :
    mapResult p b = .ofNat 32 (octetIndex p b + 256 * bitPosition b) := by
  have happend : (bitOf b ++ octetOf p b).toNat = octetIndex p b + 256 * bitPosition b := by
    rw [toNat_append_eq, octetOf_toNat hb, bitOf_toNat (one_le_of_legalBit hb)]
    omega
  rw [mapResult, BitVec.zeroExtend, ← BitVec.ofNat_toNat, happend]

/-- RES of TESTBIT: the bit, zero-extended (R90, R113). -/
theorem zeroExtend_bitValue {b : BitNum} (h : 1 ≤ b.toNat) (o : Byte) :
    (bitValue o b).zeroExtend 32 = if o.getLsbD (bitPosition b) then 1 else 0 := by
  rw [bitValue, bitOf_toNat h]
  cases o.getLsbD (bitPosition b) <;> rfl

/-- Settles O13: no octet is read, so a legal bit number is all that MAP needs. -/
theorem mapCompletes : Obligations.MapCompletes := by
  intro b s hb
  rw [exec_map_legal hb, mapResult_eq_ofNat hb]
  rfl

/-- Settles O14: the octet is present, and its bit goes to RES. -/
theorem testbitCompletes : Obligations.TestbitCompletes := by
  intro b s o hb ho
  rw [exec_testbit_present hb (octetHolds_octetOf hb ho), zeroExtend_bitValue (one_le_of_legalBit hb)]
  rfl

/-- Settles O16: the checks pass, the octet is present, and the field's value goes to RES. -/
theorem getfieldCompletes : Obligations.GetfieldCompletes := by
  intro sb eb s o h ho
  rw [exec_getfield_present h (octetHolds_octetOf h.1 ho), BitVec.zeroExtend, ← BitVec.ofNat_toNat, fieldValue_toNat h]
  rfl

/-! #### The octet that SETBIT stores -/

/-- `withBit` changes one bit: the mask clears it, and v, one bit wide, falls on no other. -/
theorem withBit_getLsbD (o : Byte) (b : BitNum) (v : BitVec 1) {k : Nat} (hk : k < 8) :
    (withBit o b v).getLsbD k = if k = (bitOf b).toNat then decide (v = 1) else o.getLsbD k := by
  have hbit : (1#8 <<< (bitOf b).toNat).getLsbD k = decide (k = (bitOf b).toNat) := by
    rw [← BitVec.twoPow_eq, BitVec.getLsbD_twoPow, decide_eq_true (bitOf b).isLt, Bool.true_and]
    exact decide_eq_decide.2 eq_comm
  have hvalue : (v.zeroExtend 8 <<< (bitOf b).toNat).getLsbD k =
      (decide (k = (bitOf b).toNat) && decide (v = 1)) := by
    rcases BitVec.eq_zero_or_eq_one v with rfl | rfl
    · simp
    · rw [show (1#1).zeroExtend 8 = 1#8 from rfl, hbit]
      simp
  rw [withBit, BitVec.getLsbD_or, BitVec.getLsbD_and, BitVec.getLsbD_not, hbit, hvalue]
  by_cases h : k = (bitOf b).toNat <;> simp [h, hk]

/-- The written bit reads back (R113, R114). -/
theorem bitValue_withBit (o : Byte) (b : BitNum) (v : BitVec 1) : bitValue (withBit o b v) b = v := by
  rw [bitValue, withBit_getLsbD o b v (bitOf b).isLt, if_pos rfl]
  rcases BitVec.eq_zero_or_eq_one v with rfl | rfl <;> rfl

/-- Settles O15: the store is a write at the bit's octet, of that octet with the one bit replaced. -/
theorem setbitCompletes : Obligations.SetbitCompletes := by
  intro b v s o hb ho
  refine ⟨_, withBit o b v, exec_setbit_present hb ho v, ?_, fun k hk => ?_, fun a ha => ?_, rfl⟩
  · exact (readFb_writeFb s _ _ _).trans (if_pos rfl)
  · rw [withBit_getLsbD o b v hk, bitOf_toNat (one_le_of_legalBit hb)]
  · exact (readFb_writeFb s _ a _).trans (if_neg ha)

/-- Settles O17: SETBIT leaves its octet present with the bit written, and TESTBIT reads it there and stores nothing. -/
theorem setThenTestGivesTheValue : Obligations.SetThenTestGivesTheValue := by
  intro b v s o hb ho
  have hwritten : octetHolds (completed (s.writeFb (octetOf s.config.params b).toNat (withBit o b v)))
      (octetOf s.config.params b).toNat (withBit o b v) :=
    ⟨ho.1, (readFb_writeFb s _ _ _).trans (if_pos rfl)⟩
  refine ⟨_, _, exec_setbit_present hb ho v, exec_testbit_present hb hwritten, ?_, fun a ha => ?_,
    withBit o b v, hwritten.2, fun k hk hne => ?_⟩
  · exact congrArg (BitVec.zeroExtend 32) (bitValue_withBit o b v)
  · exact (readFb_writeFb s _ a _).trans (if_neg ha)
  · rw [withBit_getLsbD o b v hk, if_neg hne]

end Sys2Proof.Machine

/-! ### Tag lookup and rendering

What a record holds is said once, as arithmetic on a legal bit number or range; a render command is then its record and its
completion. -/

namespace Sys2Proof.Machine

/-! #### The tag lookup -/

/-- The model's search is the library's. -/
theorem firstMatch_eq_findIdx? (t : TagTable) (v : Byte) : firstMatch t v = t.findIdx? (·.val = v) := by
  induction t with
  | nil => rfl
  | cons e es ih => simp [firstMatch, List.findIdx?_cons, ih]

/-- A match with none before it is the first (R130). -/
theorem firstMatch_eq_some {t : TagTable} {v : Byte} {k : Nat} (hk : k < t.length) (hmatch : t[k].val = v)
    (hbefore : ∀ j, (hj : j < k) → (t[j]'(hj.trans hk)).val ≠ v) : firstMatch t v = some k := by
  rw [firstMatch_eq_findIdx?, List.findIdx?_eq_some_iff_getElem]
  exact ⟨hk, decide_eq_true hmatch, fun j hj => by simpa using hbefore j hj⟩

theorem firstMatch_eq_none {t : TagTable} {v : Byte} (h : ∀ e ∈ t, e.val ≠ v) : firstMatch t v = none := by
  rw [firstMatch_eq_findIdx?, List.findIdx?_eq_none_iff]
  exact fun e he => decide_eq_false (h e he)

/-- Settles O19: in a table of at most 255 entries an index is at most 254, so a match fits the byte and is not 0xFF. -/
theorem tagLookupFindsTheFirstMatch : Obligations.TagLookupFindsTheFirstMatch := by
  intro t v hlen
  refine ⟨fun k hk hmatch hbefore => ?_, fun hnone => ?_⟩
  · have hfit : k % 2 ^ 8 = k := Nat.mod_eq_of_lt (by omega)
    rw [tagLookup, firstMatch_eq_some hk hmatch hbefore]
    exact ⟨(BitVec.toNat_ofNat ..).trans hfit, by omega⟩
  · rw [tagLookup, firstMatch_eq_none hnone]

/-! #### The records of each kind of field -/

/-- OCTET of a record is R110's octet index. -/
theorem octetOf_eq_ofNat {p : Params} {b : BitNum} (h : legalBit p b) : octetOf p b = .ofNat 8 (octetIndex p b) := by
  rw [← octetOf_toNat h, BitVec.ofNat_toNat, BitVec.setWidth_eq]

/-- A bit of its octet, at the position that R110 gives it as arithmetic. -/
theorem bitValue_eq_ofBool {b : BitNum} (h : 1 ≤ b.toNat) (o : Byte) :
    bitValue o b = BitVec.ofBool (o.getLsbD (bitPosition b)) := by
  rw [bitValue, bitOf_toNat h]

/-- RSV (R132). -/
theorem renderRsv_legal {p : Params} {b : BitNum} (h : legalBit p b) (d o : Byte) (cls : FrameClass) :
    renderRsv p b d o cls =
      if o.getLsbD (bitPosition b) then [mkRec .rsv d b b 1 0 (.ofNat 8 (octetIndex p b)) 0 cls] else [] := by
  rw [renderRsv, bitValue_eq_ofBool (one_le_of_legalBit h), octetOf_eq_ofNat h]
  cases o.getLsbD (bitPosition b) <;> rfl

/-- BOOL (R133). -/
theorem renderBool_legal {p : Params} {b : BitNum} (h : legalBit p b) (d : Byte) (lp : BitVec 4) (o : Byte)
    (cls : FrameClass) :
    renderBool p b d lp o cls =
      [mkRec .bool d b b (if o.getLsbD (bitPosition b) then 1 else 0) 0 (.ofNat 8 (octetIndex p b)) lp cls] := by
  rw [renderBool, bitValue_eq_ofBool (one_le_of_legalBit h), octetOf_eq_ofNat h]
  cases o.getLsbD (bitPosition b) <;> rfl

/-- CODED (R134). -/
theorem renderCoded_legal {p : Params} {sb : BitNum} (h : legalBit p sb) (eb : BitNum) (d : Byte) (tt : BitVec 4)
    (t : TagTable) (o : Byte) (cls : FrameClass) :
    renderCoded p sb eb d tt t o cls =
      [mkRec .coded d sb eb (fieldValue o sb eb) (tagLookup t (fieldValue o sb eb)) (.ofNat 8 (octetIndex p sb)) tt
        cls] := by
  rw [renderCoded, octetOf_eq_ofNat h]

/-- Settles O21: R135 picks the renderer by the kind, and a CODED descriptor's table is the layout's. -/
theorem fieldsRenderByKind : Obligations.FieldsRenderByKind := by
  intro p L f o cls
  refine ⟨fun hkind hb => ?_, fun hkind hb => ?_, fun t hkind hrange ht => ?_⟩
  · rw [renderField, hkind]
    exact renderRsv_legal hb ..
  · rw [renderField, hkind]
    exact renderBool_legal hb ..
  · rw [renderField, hkind, ht]
    exact renderCoded_legal hrange.1 ..

/-! #### The render commands -/

theorem pairFault_eq_none {s : State} {lp : BitVec 4} (h : (labelPair s.config.layout.raw lp).isSome = true) :
    pairFault s lp = none := if_pos h

theorem exec_rsvchk_present {b : BitNum} {s : State} {o : Byte} (hb : legalBit s.config.params b)
    (ho : octetHolds s (octetOf s.config.params b).toNat o) (d : Byte) :
    exec (.rsvchk b d) s = .next (completed (s.emit (renderRsv s.config.params b d o .disDtc))) :=
  oneBitCommand_present hb ho _

theorem exec_boolfld_present {b : BitNum} {lp : BitVec 4} {s : State} {o : Byte} (hb : legalBit s.config.params b)
    (hlp : (labelPair s.config.layout.raw lp).isSome = true)
    (ho : octetHolds s (octetOf s.config.params b).toNat o) (d : Byte) :
    exec (.boolfld b d lp) s = .next (completed (s.emit (renderBool s.config.params b d lp o .disDtc))) := by
  rw [exec, execBoolfld, pairFault_eq_none hlp, unlessFault_none]
  exact oneBitCommand_present hb ho _

theorem exec_codedfld_present {sb eb : BitNum} {tt : BitVec 4} {t : TagTable} {s : State} {o : Byte}
    (h : legalRange s.config.params sb eb) (ht : tagTable s.config.layout.raw tt = some t)
    (ho : octetHolds s (octetOf s.config.params sb).toNat o) (d : Byte) :
    exec (.codedfld sb eb d tt) s =
      .next (completed (s.emit (renderCoded s.config.params sb eb d tt t o .disDtc))) := by
  rw [exec, execCodedfld, rangeFault_eq_none h, unlessFault_none, ht]
  exact withTarget_present sb s _ o ho

/-- Settles O22: the octet is present, and what RSV renders of it goes to OUT. -/
theorem rsvchkCompletes : Obligations.RsvchkCompletes := by
  intro b d s o hb ho
  rw [exec_rsvchk_present hb (octetHolds_octetOf hb ho), renderRsv_legal hb]
  rfl

/-- Settles O23: the pair is defined and the octet present, so the one BOOL record goes to OUT. -/
theorem boolfldCompletes : Obligations.BoolfldCompletes := by
  intro b d lp s o hb hlp ho
  rw [exec_boolfld_present hb hlp (octetHolds_octetOf hb ho), renderBool_legal hb]
  rfl

/-- Settles O24: the checks pass and the octet is present, so the one CODED record goes to OUT; its VALUE is the field as
arithmetic. -/
theorem codedfldCompletes : Obligations.CodedfldCompletes := by
  intro sb eb d tt t s o v h ht ho hv
  have hvalue : fieldValue o sb eb = v := by
    rw [hv, ← fieldValue_toNat h, BitVec.ofNat_toNat, BitVec.setWidth_eq]
  rw [exec_codedfld_present h ht (octetHolds_octetOf h.1 ho), renderCoded_legal h.1, hvalue]
  rfl

/-! #### The consumer's view -/

/-- Settles O25: id 0 is answered before the layout's list is read, and any other id by an entry of that list. -/
theorem defaultPairIsAlwaysDefined : Obligations.DefaultPairIsAlwaysDefined := by
  refine fun L => ⟨if_pos rfl, fun p q hp hq => ?_⟩
  rw [labelPair, if_neg hp, List.getD_eq_getElem?_getD, Option.getD_eq_iff] at hq
  obtain hentry | ⟨_, habsurd⟩ := hq
  · exact List.mem_of_getElem? hentry
  · cases habsurd

section

variable (k : RecordKind) (d sb eb v tag oct : Byte) (aux : BitVec 4) (cls : FrameClass)

/-- The character at a display position, its bounds the bit positions of the record's range. -/
theorem patternChar_mkRec (hs : 1 ≤ sb.toNat) (he : 1 ≤ eb.toNat) (p : Nat) :
    patternChar (mkRec k d sb eb v tag oct aux cls) p =
      if bitPosition sb ≤ 7 - p ∧ 7 - p ≤ bitPosition eb
      then (if v.getLsbD (7 - p - bitPosition sb) then '1' else '0') else '.' := by
  rw [patternChar, recStart_mkRec, recEnd_mkRec, recValue_mkRec, bitOf_toNat hs, bitOf_toNat he]

theorem displayPattern_of_field (hk : k = .rsv ∨ k = .bool ∨ k = .coded) :
    displayPattern (mkRec k d sb eb v tag oct aux cls) =
      some ((List.range 8).map (patternChar (mkRec k d sb eb v tag oct aux cls))) := by
  rw [displayPattern, kindOf_mkRec]
  rcases hk with rfl | rfl | rfl <;> rfl

theorem displayPattern_of_terminal (hk : k = .short ∨ k = .beyond) :
    displayPattern (mkRec k d sb eb v tag oct aux cls) = none := by
  rw [displayPattern, kindOf_mkRec]
  rcases hk with rfl | rfl <;> rfl

end

/-- Settles O26: the kind decides whether there is a pattern, and the record's own fields each character of it. -/
theorem displayPatternRunsHighToLow : Obligations.DisplayPatternRunsHighToLow := by
  constructor
  · intro _ k d tag v oct sb eb aux cls hk ⟨hs, he, _⟩
    refine ⟨_, displayPattern_of_field k d sb eb v tag oct aux cls hk, by simp, fun p hp => ?_⟩
    rw [List.getElem?_map, List.getElem?_range hp, Option.map_some,
      patternChar_mkRec (hs := one_le_of_legalBit hs) (he := one_le_of_legalBit he)]
  · intro k d tag v oct sb eb aux cls hk
    exact displayPattern_of_terminal k d sb eb v tag oct aux cls hk

end Sys2Proof.Machine

/-! ### The steps of a DECODE

The decode step starts a walk in the class of the frame's type byte, and each walk step follows its octet. -/

namespace Sys2Proof.Machine

/-! #### The decode step -/

/-- The state in which a walk of class `cls` starts (R155). -/
def walkStarted (s : State) (cls : FrameClass) : State :=
  { s with
    err := false, ecode := .none, term := .none, cls := cls
    oi := .ofNat 5 s.config.params.firstOctet, phase := .walk }

/-- With FLEN < 3 there is no type byte to read (R153). -/
theorem frameClass_of_no_type {s : State} (h : s.flen.toNat < 3) : frameClass s = some .disDtc := if_pos h

theorem frameClass_of_type {s : State} {b : Byte} (h : octetHolds s 2 b) :
    frameClass s = some (classOfType s.config b) := by
  obtain ⟨hlen, hread⟩ := h
  rw [frameClass, if_neg (by omega), hread, Option.map_some]

/-- The class rests on the configuration, FLEN and byte 2. -/
theorem frameClass_congr {s s' : State} (hc : s'.config = s.config) (hl : s'.flen = s.flen)
    (hr : s'.readFb 2 = s.readFb 2) : frameClass s' = frameClass s := by
  simp only [frameClass, hc, hl, hr]

theorem exec_decode_of_class {s : State} {cls : FrameClass} (h : frameClass s = some cls) :
    exec .decode s = .next (walkStarted s cls) := by
  change execDecode s = _
  rw [execDecode, h]
  rfl

theorem exec_decode_of_no_class {s : State} (h : frameClass s = none) : exec .decode s = .fault .uninit := by
  change execDecode s = _
  rw [execDecode, h]

/-- Settles O32: the class is known without byte 2, or from it. -/
theorem decodeStartsTheWalk : Obligations.DecodeStartsTheWalk :=
  ⟨fun _ h => exec_decode_of_class (frameClass_of_no_type h),
    fun _ _ h => exec_decode_of_class (frameClass_of_type h)⟩

/-! #### The walk step -/

/-- In WALK the engine's step is a walk step (R26). -/
theorem engineStep_walk {s : State} (hw : s.phase = .walk) : engineStep s = walkStep s := by
  unfold engineStep
  simp only [hw]

/-- The extension indicator is tested from EXT_FIRST_OCTET up, and bit 7 is it (R154). -/
theorem extensionClear_eq_true_iff (c : Config) (i : Nat) (o : Byte) :
    extensionClear c i o = true ↔ c.extFirst.index ≤ i ∧ o.getLsbD 7 = false := by
  simp [extensionClear]

/-- The state after a walk passed octet OI, which holds `o`. -/
def octetDone (s : State) (o : Byte) : State := { s with out := s.out ++ octetRecords s o, oi := s.oi + 1 }

/-- Below OI_END the next octet's index does not wrap. -/
theorem octetDone_oi {s : State} (o : Byte) (h : s.oi.toNat < s.config.params.oiEnd) :
    (octetDone s o).oi.toNat = s.oi.toNat + 1 := oi_succ_toNat s h

theorem walkStep_end {s : State} (hend : s.oi.toNat = s.config.params.oiEnd) :
    walkStep s = .next { s with
      out := s.out ++ [beyondRecord s.config.params s.cls], term := .beyond, phase := .idle } :=
  if_pos hend

theorem walkStep_absent {s : State} (hend : s.oi.toNat ≠ s.config.params.oiEnd) (hf : s.flen.toNat ≤ s.oi.toNat) :
    walkStep s = .next { s with
      out := s.out ++ [shortRecord (.ofNat 8 s.oi.toNat) s.cls], term := .short, phase := .idle } := by
  rw [BitVec.ofNat_toNat]
  exact (if_neg hend).trans (if_pos (decide_eq_true hf))

theorem walkStep_unwritten {s : State} (hend : s.oi.toNat ≠ s.config.params.oiEnd) (hf : s.oi.toNat < s.flen.toNat)
    (hr : s.readFb s.oi.toNat = none) : walkStep s = .fault .uninit := by
  rw [walkStep, if_neg hend, octetAbsent, decide_eq_false hf.not_ge, if_neg Bool.false_ne_true, hr]

theorem walkStep_present {s : State} {o : Byte} (hend : s.oi.toNat ≠ s.config.params.oiEnd)
    (ho : octetHolds s s.oi.toNat o) :
    walkStep s =
      if extensionClear s.config s.oi.toNat o = true
      then .next { s with out := s.out ++ octetRecords s o, term := .complete, phase := .idle }
      else .next (octetDone s o) := by
  obtain ⟨hlen, hread⟩ := ho
  rw [walkStep, if_neg hend, octetAbsent, decide_eq_false hlen.not_ge, if_neg Bool.false_ne_true, hread]
  rfl

/-- Settles O33, a rule of the walk step for each clause. -/
theorem walkStepFollowsTheOctet : Obligations.WalkStepFollowsTheOctet := by
  intro s hw
  rw [engineStep_walk hw]
  refine ⟨walkStep_end, fun hp h19 => ?_, walkStep_absent, fun o rs hend ho hrs => ?_⟩
  · have hoiEnd : s.config.params.oiEnd = 19 := congrArg Params.oiEnd hp
    rw [walkStep_end (h19.trans hoiEnd.symm), beyondRecord, hoiEnd]
    rfl
  · subst hrs
    exact (walkStep_present hend ho).trans (if_congr (extensionClear_eq_true_iff ..) rfl rfl)

/-! #### The class of a walk's records -/

/-- A descriptor's records carry the class they are rendered for (R95). -/
theorem recCls_of_mem_renderField {p : Params} {L : Layout} {f : Descriptor} {o : Byte} {cls : FrameClass} {r : Record}
    (hr : r ∈ renderField p L f o cls) : recCls r = cls.bit := by
  unfold renderField renderRsv renderBool renderCoded at hr
  cases hk : f.kind with
  | rsv =>
    simp only [hk] at hr
    split at hr
    · rw [List.mem_singleton.1 hr, recCls_mkRec]
    · cases hr
  | bool | coded =>
    simp only [hk] at hr
    rw [List.mem_singleton.1 hr, recCls_mkRec]

/-- `r` is a record that the walk of `s` may emit: of its class, terminal or of one of the octet's descriptors (R166). -/
def OfWalk (s : State) (r : Record) : Prop :=
  recCls r = s.cls.bit ∧
    (kindOf r = some .short ∨ kindOf r = some .beyond ∨
      ∃ f ∈ layoutFields s.config.params s.config.layout.raw s.cls s.oi.toNat,
        ∃ o, r ∈ renderField s.config.params s.config.layout.raw f o s.cls)

theorem ofWalk_beyondRecord (s : State) : OfWalk s (beyondRecord s.config.params s.cls) :=
  ⟨recCls_mkRec .., .inr (.inl (kindOf_mkRec ..))⟩

theorem ofWalk_shortRecord (s : State) (oct : Byte) : OfWalk s (shortRecord oct s.cls) :=
  ⟨recCls_mkRec .., .inl (kindOf_mkRec ..)⟩

theorem ofWalk_of_mem_octetRecords {s : State} {o : Byte} {r : Record} (hr : r ∈ octetRecords s o) : OfWalk s r := by
  obtain ⟨f, hf, hr⟩ := List.mem_flatMap.1 hr
  exact ⟨recCls_of_mem_renderField hr, .inr (.inr ⟨f, hf, o, hr⟩)⟩

/-- Settles O38, by what the walk step did. -/
theorem walkRecordsCarryTheClass : Obligations.WalkRecordsCarryTheClass := by
  intro s t hw h
  rw [engineStep_walk hw] at h
  rcases walkStep_cases s with ⟨_, e⟩ | ⟨_, _, e⟩ | ⟨_, _, _, e⟩ | ⟨o, _, _, _, e⟩ | ⟨o, _, _, _, e⟩ <;>
    rw [e] at h <;> cases h <;> refine ⟨rfl, _, rfl, fun r hr => ?_⟩
  · exact List.mem_singleton.1 hr ▸ ofWalk_beyondRecord s
  · exact List.mem_singleton.1 hr ▸ ofWalk_shortRecord s _
  · exact ofWalk_of_mem_octetRecords hr
  · exact ofWalk_of_mem_octetRecords hr

end Sys2Proof.Machine

/-! ### The closed form of a DECODE

`restOfWalk` is the closed form from the octet that a walk has come to. Each walk step keeps it, up to the records that the
step emits; the runs follow by induction over the indices left. -/

namespace Sys2Proof.Machine

/-! #### Runs of the engine -/

theorem engineRun_succ {s t : State} (h : engineStep s = .next t) (n : Nat) : engineRun (n + 1) s = engineRun n t := by
  rw [engineRun, h]

theorem engineRun_succ_fault {s : State} {r : Fault} (h : engineStep s = .fault r) (n : Nat) :
    engineRun (n + 1) s = .fault r := by
  rw [engineRun, h]

/-- An idle engine stays as it is. -/
theorem engineRun_idle {s : State} (h : s.phase = .idle) (n : Nat) : engineRun n s = .next s := by
  have hstep : engineStep s = .next s := by
    unfold engineStep
    simp only [h]
  induction n with
  | zero => rfl
  | succ n ih => rw [engineRun_succ hstep, ih]

/-- A run that has come to IDLE answers the same however long it goes on. -/
theorem engineRun_of_le {m n : Nat} {s t : State} (h : engineRun m s = .next t) (ht : t.phase = .idle) (hmn : m ≤ n) :
    engineRun n s = .next t := by
  induction m generalizing n s with
  | zero =>
    cases h
    exact engineRun_idle ht n
  | succ m ih =>
    obtain ⟨n, rfl⟩ := Nat.exists_eq_add_one.2 (Nat.zero_lt_of_lt hmn)
    cases hstep : engineStep s with
    | next u =>
      rw [engineRun_succ hstep] at h ⊢
      exact ih h (Nat.le_of_succ_le_succ hmn)
    | fault r => simp [engineRun, hstep] at h
    | refused r => simp [engineRun, hstep] at h

/-! #### The closed form, octet by octet -/

/-- One octet of the closed form: SHORT, Uninit, COMPLETE, or the octet's records before the rest (R163). -/
theorem decodeOctets_succ_cases (c : Config) (fb : Memory) (flen : Nat) (cls : FrameClass) (i n : Nat) :
    (flen ≤ i ∧ decodeOctets c fb flen cls i (n + 1) = some ⟨[shortRecord (.ofNat 8 i) cls], .short, i⟩) ∨
    (i < flen ∧ fb.read i = none ∧ decodeOctets c fb flen cls i (n + 1) = none) ∨
    (∃ o, i < flen ∧ fb.read i = some o ∧ extensionClear c i o = true ∧
      decodeOctets c fb flen cls i (n + 1) =
        some ⟨renderFields c.params c.layout.raw (layoutFields c.params c.layout.raw cls i) o cls, .complete, i⟩) ∨
    (∃ o, i < flen ∧ fb.read i = some o ∧ extensionClear c i o = false ∧
      decodeOctets c fb flen cls i (n + 1) = (decodeOctets c fb flen cls (i + 1) n).map
        (Decoded.after (renderFields c.params c.layout.raw (layoutFields c.params c.layout.raw cls i) o cls))) := by
  rw [decodeOctets]
  by_cases hf : flen ≤ i
  · exact .inl ⟨hf, if_pos hf⟩
  · have hf' : i < flen := by omega
    cases hr : fb.read i with
    | none => exact .inr (.inl ⟨hf', rfl, if_neg hf⟩)
    | some o =>
      cases he : extensionClear c i o with
      | true => exact .inr (.inr (.inl ⟨o, hf', rfl, he, by simp [hf, he]⟩))
      | false => exact .inr (.inr (.inr ⟨o, hf', rfl, he, by simp [hf, he]⟩))

/-- What is left of the closed form for a walk that has come to octet OI. -/
def restOfWalk (s : State) : Option Decoded :=
  decodeOctets s.config s.fb s.flen.toNat s.cls s.oi.toNat (s.config.params.oiEnd - s.oi.toNat)

/-- A started walk has all of decodeFrame before it. -/
theorem restOfWalk_walkStarted (s : State) (cls : FrameClass) :
    restOfWalk (walkStarted s cls) = decodeFrame s.config s.fb s.flen.toNat cls := by
  have hcount : s.config.params.oiEnd - s.config.params.firstOctet = octetCount s.config.params := by
    rw [← firstOctet_add_octetCount, Nat.add_sub_cancel_left]
  change decodeOctets _ _ _ _ (BitVec.ofNat 5 s.config.params.firstOctet).toNat
    (s.config.params.oiEnd - (BitVec.ofNat 5 s.config.params.firstOctet).toNat) = _
  rw [firstOctet_toNat, hcount]
  rfl

/-- The state in which a walk from `s` ends with `d`. -/
def walkEnded (s : State) (d : Decoded) : State :=
  { s with out := s.out ++ d.records, term := d.term, oi := .ofNat 5 d.oi, phase := .idle }

theorem walkEnded_at_oi (s : State) (rs : List Record) (t : Term) :
    walkEnded s ⟨rs, t, s.oi.toNat⟩ = { s with out := s.out ++ rs, term := t, phase := .idle } := by
  simp [walkEnded]

/-- Ending after an octet is done is ending with its records in front. -/
theorem walkEnded_octetDone (s : State) (o : Byte) (d : Decoded) :
    walkEnded (octetDone s o) d = walkEnded s (d.after (octetRecords s o)) := by
  simp [walkEnded, octetDone, Decoded.after]

/-- The commuting diagram of a walk step: it ends as the closed form does, stops where the closed form is undefined, or
leaves the closed form of the next octet. -/
theorem engineStep_restOfWalk {s : State} (hw : s.phase = .walk) (hle : s.oi.toNat ≤ s.config.params.oiEnd) :
    (∃ d, restOfWalk s = some d ∧ d.oi = s.oi.toNat ∧ engineStep s = .next (walkEnded s d)) ∨
    (restOfWalk s = none ∧ engineStep s = .fault .uninit) ∨
    (∃ o, s.oi.toNat < s.config.params.oiEnd ∧ engineStep s = .next (octetDone s o) ∧
      restOfWalk s = (restOfWalk (octetDone s o)).map (Decoded.after (octetRecords s o))) := by
  rw [engineStep_walk hw]
  by_cases hend : s.oi.toNat = s.config.params.oiEnd
  · refine .inl ⟨⟨[beyondRecord s.config.params s.cls], .beyond, s.oi.toNat⟩, ?_, rfl, ?_⟩
    · rw [restOfWalk, hend, Nat.sub_self]
      rfl
    · rw [walkStep_end hend, walkEnded_at_oi]
  · obtain ⟨n, hn⟩ : ∃ n, s.config.params.oiEnd - s.oi.toNat = n + 1 := Nat.exists_eq_add_one.2 (by omega)
    rw [restOfWalk, hn]
    rcases decodeOctets_succ_cases s.config s.fb s.flen.toNat s.cls s.oi.toNat n with
      ⟨hf, e⟩ | ⟨hf, hr, e⟩ | ⟨o, hf, hr, hext, e⟩ | ⟨o, hf, hr, hext, e⟩ <;> rw [e]
    · exact .inl ⟨_, rfl, rfl, by rw [walkStep_absent hend hf, walkEnded_at_oi]⟩
    · exact .inr (.inl ⟨rfl, walkStep_unwritten hend hf hr⟩)
    · exact .inl ⟨_, rfl, rfl, by rw [walkStep_present hend ⟨hf, hr⟩, if_pos hext, walkEnded_at_oi]; rfl⟩
    · have hlt : s.oi.toNat < s.config.params.oiEnd := by omega
      refine .inr (.inr ⟨o, hlt, by rw [walkStep_present hend ⟨hf, hr⟩, hext, if_neg Bool.false_ne_true], ?_⟩)
      have hnext := octetDone_oi o hlt
      have hleft : s.config.params.oiEnd - (octetDone s o).oi.toNat = n := by omega
      rw [restOfWalk, show (octetDone s o).config = s.config from rfl, hleft, hnext]
      rfl

/-! #### The run of a walk -/

/-- A walk whose closed form is defined takes one step at each index up to the last, and is busy before that. -/
theorem engineRun_walk {n : Nat} {s : State} {d : Decoded} (hw : s.phase = .walk)
    (hn : s.oi.toNat + n = s.config.params.oiEnd) (hd : restOfWalk s = some d) :
    ∃ k ≤ n, d.oi = s.oi.toNat + k ∧ engineRun (k + 1) s = .next (walkEnded s d) ∧
      ∀ j ≤ k, ∃ t, engineRun j s = .next t ∧ t.busy = true := by
  have hnow : ∃ t, engineRun 0 s = .next t ∧ t.busy = true := ⟨s, rfl, (busy_eq_true_iff s).2 (.inr hw)⟩
  induction n using Nat.strong_induction_on generalizing s d with
  | _ n ih =>
    rcases engineStep_restOfWalk hw (Nat.le.intro hn) with ⟨d', hd', hoi, e⟩ | ⟨hnone, _⟩ | ⟨o, hlt, e, hrest⟩
    · obtain rfl : d' = d := Option.some.inj (hd'.symm.trans hd)
      exact ⟨0, Nat.zero_le n, hoi, engineRun_succ e 0, fun j hj => Nat.le_zero.1 hj ▸ hnow⟩
    · cases hnone.symm.trans hd
    · obtain ⟨m, rfl⟩ : ∃ m, n = m + 1 := Nat.exists_eq_add_one.2 (by omega)
      obtain ⟨d', hd', rfl⟩ := Option.map_eq_some_iff.1 (hrest.symm.trans hd)
      have hnext := octetDone_oi o hlt
      have hleft : (octetDone s o).oi.toNat + m = s.config.params.oiEnd := by omega
      obtain ⟨k, hk, hoi, hrun, hearlier⟩ := ih m (Nat.lt_succ_self m) (s := octetDone s o) hw hleft hd'
        ⟨octetDone s o, rfl, (busy_eq_true_iff _).2 (.inr hw)⟩
      refine ⟨k + 1, Nat.succ_le_succ hk, ?_, ?_, fun j hj => ?_⟩
      · change d'.oi = _
        omega
      · rw [engineRun_succ e, hrun, walkEnded_octetDone]
      · cases j with
        | zero => exact hnow
        | succ j =>
          rw [engineRun_succ e]
          exact hearlier j (Nat.le_of_succ_le_succ hj)

/-- A walk whose closed form is undefined stops with Uninit, at OI_END at the latest. -/
theorem engineRun_walk_uninit {n : Nat} {s : State} (hw : s.phase = .walk)
    (hn : s.oi.toNat + n = s.config.params.oiEnd) (hd : restOfWalk s = none) :
    engineRun (n + 1) s = .fault .uninit := by
  induction n using Nat.strong_induction_on generalizing s with
  | _ n ih =>
    rcases engineStep_restOfWalk hw (Nat.le.intro hn) with ⟨d, hd', _⟩ | ⟨_, e⟩ | ⟨o, hlt, e, hrest⟩
    · cases hd.symm.trans hd'
    · exact engineRun_succ_fault e n
    · obtain ⟨m, rfl⟩ : ∃ m, n = m + 1 := Nat.exists_eq_add_one.2 (by omega)
      have hnext := octetDone_oi o hlt
      have hleft : (octetDone s o).oi.toNat + m = s.config.params.oiEnd := by omega
      rw [engineRun_succ e]
      exact ih m (Nat.lt_succ_self m) (s := octetDone s o) hw hleft (Option.map_eq_none_iff.1 (hrest.symm.trans hd))

/-! #### The run of a DECODE -/

/-- The index at which a walk starts and the capability octets make up OI_END. -/
theorem walkStarted_oi_add (s : State) (cls : FrameClass) :
    (walkStarted s cls).oi.toNat + octetCount s.config.params = s.config.params.oiEnd := by
  change (BitVec.ofNat 5 s.config.params.firstOctet).toNat + _ = _
  rw [firstOctet_toNat, firstOctet_add_octetCount]

/-- One decode step, a walk step at each capability octet, and one at OI_END (R164). -/
theorem decodeSteps_eq (p : Params) : decodeSteps p = octetCount p + 1 + 1 := by
  have := firstOctet_add_octetCount p
  unfold decodeSteps
  omega

section

variable {s : State} (hp : s.phase = .pending) (hd : decodeCmd s.cmdq = .ok .decode)

include hp hd

/-- The run of a DECODE: its decode step starts a walk with all of decodeFrame before it. -/
theorem engineRun_decode {cls : FrameClass} {d : Decoded} (hc : frameClass s = some cls)
    (hf : decodeFrame s.config s.fb s.flen.toNat cls = some d) :
    ∃ k ≤ octetCount s.config.params, d.oi = s.config.params.firstOctet + k ∧
      engineRun (k + 2) s = .next (walkEnded (walkStarted s cls) d) ∧
      ∀ j < k + 2, ∃ t, engineRun j s = .next t ∧ t.busy = true := by
  have hstart : engineStep s = .next (walkStarted s cls) :=
    (engineStep_pending hp hd).trans (exec_decode_of_class hc)
  obtain ⟨k, hk, hoi, hrun, hearlier⟩ := engineRun_walk (s := walkStarted s cls) rfl (walkStarted_oi_add s cls)
    ((restOfWalk_walkStarted s cls).trans hf)
  refine ⟨k, hk, hoi.trans (congrArg (· + k) (firstOctet_toNat _)), (engineRun_succ hstart _).trans hrun,
    fun j hj => ?_⟩
  cases j with
  | zero => exact ⟨s, rfl, (busy_eq_true_iff s).2 (.inl hp)⟩
  | succ j =>
    rw [engineRun_succ hstart]
    exact hearlier j (by omega)

/-- Where the closed form is defined, the steps that a DECODE takes at most reach its end. -/
theorem engineRun_decodeSteps {cls : FrameClass} {d : Decoded} (hc : frameClass s = some cls)
    (hf : decodeFrame s.config s.fb s.flen.toNat cls = some d) :
    engineRun (decodeSteps s.config.params) s = .next (walkEnded (walkStarted s cls) d) := by
  obtain ⟨k, hk, _, hrun, _⟩ := engineRun_decode hp hd hc hf
  refine engineRun_of_le hrun rfl ?_
  rw [decodeSteps_eq]
  omega

/-- The steps that a DECODE takes at most reach the end of its closed form, or stop with Uninit. -/
theorem engineRun_decodeSteps_cases :
    engineRun (decodeSteps s.config.params) s = .fault .uninit ∨
    ∃ cls d, frameClass s = some cls ∧ decodeFrame s.config s.fb s.flen.toNat cls = some d ∧
      engineRun (decodeSteps s.config.params) s = .next (walkEnded (walkStarted s cls) d) := by
  have hstep := engineStep_pending hp hd
  cases hc : frameClass s with
  | none =>
    rw [exec_decode_of_no_class hc] at hstep
    exact .inl (decodeSteps_eq _ ▸ engineRun_succ_fault hstep _)
  | some cls =>
    cases hf : decodeFrame s.config s.fb s.flen.toNat cls with
    | none =>
      rw [exec_decode_of_class hc] at hstep
      refine .inl ?_
      rw [decodeSteps_eq, engineRun_succ hstep]
      exact engineRun_walk_uninit (s := walkStarted s cls) rfl (walkStarted_oi_add s cls)
        ((restOfWalk_walkStarted s cls).trans hf)
    | some d => exact .inr ⟨cls, d, rfl, hf, engineRun_decodeSteps hp hd hc hf⟩

end

/-- Settles O34: the last index is k past FIRST_OCTET, and the run takes k + 2 steps. -/
theorem decodeMeetsItsClosedForm : Obligations.DecodeMeetsItsClosedForm := by
  intro s cls d hp hd hc hf
  obtain ⟨k, _, hoi, hrun, hearlier⟩ := engineRun_decode hp hd hc hf
  have hsteps : 1 + (d.oi - s.config.params.firstOctet + 1) = k + 2 := by omega
  rw [hsteps]
  exact ⟨hrun, hearlier⟩

/-- A walk step ends the walk, or goes to the next index. -/
theorem engineStep_walk_idle_or_next {s t : State} (hw : s.phase = .walk) (hle : s.oi.toNat ≤ s.config.params.oiEnd)
    (h : engineStep s = .next t) :
    t.phase = .idle ∨
      (t.phase = .walk ∧ t.oi.toNat = s.oi.toNat + 1 ∧ t.oi.toNat ≤ s.config.params.oiEnd) := by
  rcases engineStep_restOfWalk hw hle with ⟨d, _, _, e⟩ | ⟨_, e⟩ | ⟨o, hlt, e, _⟩ <;> rw [e] at h <;> cases h
  · exact .inl rfl
  · have hnext := octetDone_oi o hlt
    exact .inr ⟨hw, hnext, by omega⟩

/-- A DECODE that does not stop with Uninit is over after the steps it takes at most. -/
theorem engineRun_decodeSteps_idle_or_uninit {s : State} (hp : s.phase = .pending)
    (hd : decodeCmd s.cmdq = .ok .decode) :
    (∃ t, engineRun (decodeSteps s.config.params) s = .next t ∧ t.phase = .idle) ∨
      engineRun (decodeSteps s.config.params) s = .fault .uninit :=
  (engineRun_decodeSteps_cases hp hd).symm.imp_left fun ⟨_, _, _, _, e⟩ => ⟨_, e, rfl⟩

/-- Settles O35: OI rises to OI_END at most, and every DECODE has a closed form or stops with Uninit. -/
theorem decodeEndsWithinEighteenSteps : Obligations.DecodeEndsWithinEighteenSteps := by
  refine ⟨fun s t hw _ hle h => ?_, fun s => engineRun_decodeSteps_idle_or_uninit, fun s hparams hp hd => ?_⟩
  · refine (engineStep_walk_idle_or_next hw hle h).imp_right fun ⟨hphase, hnext, hend⟩ => ?_
    exact ⟨hphase, hnext, hend, fun hparams => hend.trans_eq (congrArg Params.oiEnd hparams)⟩
  · have h18 : decodeSteps s.config.params = 18 := by
      rw [hparams]
      rfl
    exact h18 ▸ engineRun_decodeSteps_idle_or_uninit hp hd

end Sys2Proof.Machine

/-! ### What a DECODE depends on, and how it ends

Both are read off the closed form: which octets it reads, and the shape of the frame at its last index. -/

namespace Sys2Proof.Machine

/-! #### The shape of the frame -/

/-- The walk goes on after octet j: it is inside the frame and its extension bit is set, or not looked at (R154, R160). -/
def PassesOctet (c : Config) (fb : Memory) (flen j : Nat) : Prop :=
  j < flen ∧ (c.extFirst.index ≤ j → extensionSet fb j = true)

/-- How the frame looks at the index k at which a walk ends with each outcome (R157, R169). -/
def EndsAt (c : Config) (fb : Memory) (flen k : Nat) : Term → Prop
  | .none => False
  | .complete => k < c.params.oiEnd ∧ k < flen ∧ c.extFirst.index ≤ k ∧ extensionSet fb k = false
  | .short => k < c.params.oiEnd ∧ flen ≤ k
  | .beyond => k = c.params.oiEnd

/-- A walk ends at OI_END at the latest. -/
theorem EndsAt.le_oiEnd {c : Config} {fb : Memory} {flen k : Nat} {t : Term} (h : EndsAt c fb flen k t) :
    k ≤ c.params.oiEnd := by
  cases t with
  | none => exact h.elim
  | complete | short => exact h.1.le
  | beyond => exact le_of_eq h

/-- On a written octet the indicator is clear exactly when it is looked at and bit 7 is 0. -/
theorem extensionClear_iff_extensionSet {c : Config} {fb : Memory} {i : Nat} {o : Byte} (hr : fb.read i = some o) :
    extensionClear c i o = true ↔ c.extFirst.index ≤ i ∧ extensionSet fb i = false := by
  rw [extensionClear_eq_true_iff, extensionSet, hr]

theorem passesOctet_of_extensionClear_eq_false {c : Config} {fb : Memory} {flen i : Nat} {o : Byte} (hf : i < flen)
    (hr : fb.read i = some o) (hext : extensionClear c i o = false) : PassesOctet c fb flen i := by
  refine ⟨hf, fun hlook => Bool.eq_true_of_not_eq_false fun hset => ?_⟩
  exact Bool.false_ne_true (hext.symm.trans ((extensionClear_iff_extensionSet hr).2 ⟨hlook, hset⟩))

/-- The closed form passes every octet below its last index, and at that index the frame is as its outcome says. -/
theorem decodeOctets_outcome {c : Config} {fb : Memory} {flen n i : Nat} {cls : FrameClass} {d : Decoded}
    (hn : i + n = c.params.oiEnd) (hd : decodeOctets c fb flen cls i n = some d) :
    i ≤ d.oi ∧ (∀ j, i ≤ j → j < d.oi → PassesOctet c fb flen j) ∧ EndsAt c fb flen d.oi d.term := by
  induction n generalizing i d with
  | zero =>
    cases hd
    exact ⟨hn.le, fun j hj hlt => absurd (hn.ge.trans hj) hlt.not_ge, rfl⟩
  | succ n ih =>
    have hend : i < c.params.oiEnd := by omega
    rcases decodeOctets_succ_cases c fb flen cls i n with
      ⟨hf, e⟩ | ⟨_, _, e⟩ | ⟨o, hf, hr, hext, e⟩ | ⟨o, hf, hr, hext, e⟩ <;> rw [e] at hd
    · cases hd
      exact ⟨le_rfl, fun j hj hlt => absurd hlt hj.not_gt, hend, hf⟩
    · cases hd
    · cases hd
      exact ⟨le_rfl, fun j hj hlt => absurd hlt hj.not_gt, hend, hf, (extensionClear_iff_extensionSet hr).1 hext⟩
    · obtain ⟨d', hd', rfl⟩ := Option.map_eq_some_iff.1 hd
      obtain ⟨hle, hpass, hends⟩ := ih ((Nat.add_right_comm ..).trans hn) hd'
      refine ⟨Nat.le_of_succ_le hle, fun j hj hlt => ?_, hends⟩
      rcases Nat.eq_or_lt_of_le hj with rfl | hlt'
      · exact passesOctet_of_extensionClear_eq_false hf hr hext
      · exact hpass j hlt' hlt

theorem decodeFrame_outcome {c : Config} {fb : Memory} {flen : Nat} {cls : FrameClass} {d : Decoded}
    (hd : decodeFrame c fb flen cls = some d) :
    c.params.firstOctet ≤ d.oi ∧ (∀ j, c.params.firstOctet ≤ j → j < d.oi → PassesOctet c fb flen j) ∧
      EndsAt c fb flen d.oi d.term :=
  decodeOctets_outcome (firstOctet_add_octetCount c.params) hd

section

variable {c : Config} {fb : Memory} {flen k : Nat} {t : Term} (hfirst : c.params.firstOctet ≤ k)
  (hpass : ∀ j, c.params.firstOctet ≤ j → j < k → PassesOctet c fb flen j) (hends : EndsAt c fb flen k t)

include hpass in
/-- A walk comes no further than the first absent octet. -/
theorem le_firstAbsent : k ≤ max flen c.params.firstOctet := by
  by_contra hlt
  obtain ⟨hinside, _⟩ := hpass _ (le_max_right flen _) (not_le.1 hlt)
  omega

include hfirst hpass hends

/-- COMPLETE ends at the first octet whose tested extension bit is clear (R169). -/
theorem endsAt_complete_iff (i : Nat) : (t = .complete ∧ k = i) ↔
    (c.params.firstOctet ≤ i ∧ i ≤ c.params.lastOctet ∧ i < flen ∧
      (∀ j, c.params.firstOctet ≤ j → c.extFirst.index ≤ j → j < i → extensionSet fb j = true) ∧
      extensionSet fb i = false ∧ c.extFirst.index ≤ i) := by
  obtain ⟨_, _, ⟨hend, _⟩, _⟩ := c.params.ok
  constructor
  · rintro ⟨rfl, rfl⟩
    obtain ⟨hlt, hlen, hlook, hclear⟩ := hends
    exact ⟨hfirst, by omega, hlen, fun j hj hlook hjk => (hpass j hj hjk).2 hlook, hclear, hlook⟩
  · rintro ⟨hi, hlast, hlen, hset, hclear, hlook⟩
    have hki : k ≤ i := by
      by_contra hlt
      exact Bool.false_ne_true (hclear.symm.trans ((hpass i hi (not_le.1 hlt)).2 hlook))
    cases t with
    | none => exact hends.elim
    | complete =>
      obtain ⟨_, _, hlook', hclear'⟩ := hends
      refine ⟨rfl, le_antisymm hki ?_⟩
      by_contra hlt
      exact Bool.false_ne_true (hclear'.symm.trans (hset k hfirst hlook' (not_le.1 hlt)))
    | short =>
      obtain ⟨_, habsent⟩ := hends
      omega
    | beyond =>
      have hk : k = c.params.oiEnd := hends
      omega

/-- SHORT ends at the first absent octet (R169). -/
theorem endsAt_short_iff (i : Nat) : (t = .short ∧ k = i) ↔
    (i = max flen c.params.firstOctet ∧ i ≤ c.params.lastOctet ∧
      ∀ j, c.params.firstOctet ≤ j → c.extFirst.index ≤ j → j < i → extensionSet fb j = true) := by
  obtain ⟨_, _, ⟨hend, _⟩, _⟩ := c.params.ok
  have hle := le_firstAbsent hpass
  constructor
  · rintro ⟨rfl, rfl⟩
    obtain ⟨hlt, habsent⟩ := hends
    exact ⟨by omega, by omega, fun j hj hlook hjk => (hpass j hj hjk).2 hlook⟩
  · rintro ⟨hi, hlast, hset⟩
    cases t with
    | none => exact hends.elim
    | complete =>
      obtain ⟨_, hlen, hlook, hclear⟩ := hends
      exact absurd (hclear.symm.trans (hset k hfirst hlook (by omega))) Bool.false_ne_true
    | short =>
      obtain ⟨_, habsent⟩ := hends
      exact ⟨rfl, by omega⟩
    | beyond =>
      have hk : k = c.params.oiEnd := hends
      omega

/-- BEYOND has every capability octet before it (R169). -/
theorem endsAt_beyond_iff : t = .beyond ↔
    (c.params.oiEnd ≤ flen ∧
      ∀ j, c.params.firstOctet ≤ j → c.extFirst.index ≤ j → j ≤ c.params.lastOctet → extensionSet fb j = true) := by
  obtain ⟨_, ⟨_, hlast⟩, ⟨hend, _⟩, _⟩ := c.params.ok
  have hle := le_firstAbsent hpass
  constructor
  · rintro rfl
    have hk : k = c.params.oiEnd := hends
    exact ⟨by omega, fun j hj hlook hjl => (hpass j hj (by omega)).2 hlook⟩
  · rintro ⟨hlen, hset⟩
    cases t with
    | none => exact hends.elim
    | complete =>
      obtain ⟨hlt, _, hlook, hclear⟩ := hends
      exact absurd (hclear.symm.trans (hset k hfirst hlook (by omega))) Bool.false_ne_true
    | short =>
      obtain ⟨hlt, habsent⟩ := hends
      omega
    | beyond => rfl

end

/-- Settles O40: the octets that were passed and the last one leave one outcome open for each shape of the frame. -/
theorem walkOutcomeFollowsTheFrame : Obligations.WalkOutcomeFollowsTheFrame := by
  intro c fb flen cls d hd
  obtain ⟨hfirst, hpass, hends⟩ := decodeFrame_outcome hd
  exact ⟨endsAt_complete_iff hfirst hpass hends, endsAt_short_iff hfirst hpass hends,
    endsAt_beyond_iff hfirst hpass hends⟩

/-! #### The octets that are read -/

/-- The closed form reads octets up to its last index, and no other byte. -/
theorem decodeOctets_congr {c : Config} {fb m : Memory} {flen n i : Nat} {cls : FrameClass} {d : Decoded}
    (hn : i + n = c.params.oiEnd) (hd : decodeOctets c fb flen cls i n = some d)
    (hm : ∀ a, i ≤ a → a < c.params.oiEnd → a ≤ d.oi → m.read a = fb.read a) :
    decodeOctets c m flen cls i n = some d := by
  induction n generalizing i d with
  | zero => exact hd
  | succ n ih =>
    obtain ⟨hle, _⟩ := decodeOctets_outcome hn hd
    rw [decodeOctets] at hd ⊢
    by_cases hf : flen ≤ i
    · rwa [if_pos hf] at hd ⊢
    · rw [if_neg hf] at hd ⊢
      obtain ⟨o, hr, ho⟩ := Option.bind_eq_some_iff.1 hd
      rw [hm i le_rfl (by omega) hle, hr, Option.bind_some]
      cases hext : extensionClear c i o with
      | true => simpa only [hext, if_true] using ho
      | false =>
        simp only [hext, Bool.false_eq_true, if_false] at ho ⊢
        obtain ⟨d', hd', rfl⟩ := Option.map_eq_some_iff.1 ho
        have hn' : i + 1 + n = c.params.oiEnd := (Nat.add_right_comm ..).trans hn
        rw [ih hn' hd' fun a ha => hm a (Nat.le_of_succ_le ha), Option.map_some]

/-- decodeFrame reads the capability octets up to its last index, and no other byte. -/
theorem decodeFrame_congr {c : Config} {fb m : Memory} {flen : Nat} {cls : FrameClass} {d : Decoded}
    (hd : decodeFrame c fb flen cls = some d)
    (hm : ∀ a, c.params.firstOctet ≤ a → a ≤ c.params.lastOctet → a ≤ d.oi → m.read a = fb.read a) :
    decodeFrame c m flen cls = some d := by
  obtain ⟨_, _, ⟨hend, _⟩, _⟩ := c.params.ok
  exact decodeOctets_congr (firstOctet_add_octetCount c.params) hd fun a ha hlt => hm a ha (by omega)

/-- Settles O36: both runs have the closed form that the first has. -/
theorem decodeKeepsNoEarlierState : Obligations.DecodeKeepsNoEarlierState := by
  intro s s' t hp hp' hd hd' hconfig hflen hread hrun
  rcases engineRun_decodeSteps_cases hp hd with e | ⟨cls, d, hc, hf, e⟩ <;> cases e.symm.trans hrun
  have hc' : frameClass s' = some cls := (frameClass_congr hconfig hflen (hread 2 (.inl rfl))).trans hc
  have hf' : decodeFrame s'.config s'.fb s'.flen.toNat cls = some d := by
    rw [hconfig, hflen]
    exact decodeFrame_congr hf fun a hfirst hlast _ => hread a (.inr ⟨hfirst, hlast⟩)
  have hrun' := engineRun_decodeSteps hp' hd' hc' hf'
  rw [hconfig] at hrun'
  exact ⟨_, d.records, hrun', rfl, rfl, rfl, rfl, rfl, rfl, rfl⟩

/-- The last index of a closed form fits OI's 5 bits. -/
theorem decodeFrame_oi_toNat {c : Config} {fb : Memory} {flen : Nat} {cls : FrameClass} {d : Decoded}
    (hd : decodeFrame c fb flen cls = some d) : (BitVec.ofNat 5 d.oi).toNat = d.oi := by
  obtain ⟨_, _, ⟨_, h31⟩, _⟩ := c.params.ok
  obtain ⟨_, _, hends⟩ := decodeFrame_outcome hd
  have hle := hends.le_oiEnd
  exact (BitVec.toNat_ofNat ..).trans (Nat.mod_eq_of_lt (by omega))

/-- Settles O39: neither byte 2 nor an octet that the closed form reads lies above the last index. -/
theorem trailingBytesDoNotMatter : Obligations.TrailingBytesDoNotMatter := by
  intro s t m hp hd hrun _ hm
  rcases engineRun_decodeSteps_cases hp hd with e | ⟨cls, d, hc, hf, e⟩ <;> cases e.symm.trans hrun
  have hm' : ∀ a ≤ d.oi, m.read a = s.fb.read a := fun a ha => hm a (ha.trans_eq (decodeFrame_oi_toNat hf).symm)
  obtain ⟨_, ⟨h3, _⟩, _⟩ := s.config.params.ok
  obtain ⟨hfirst, _⟩ := decodeFrame_outcome hf
  have hc' : frameClass { s with fb := m } = some cls :=
    (frameClass_congr (s := s) (s' := { s with fb := m }) rfl rfl (hm' 2 (by omega))).trans hc
  exact engineRun_decodeSteps (s := { s with fb := m }) hp hd hc' (decodeFrame_congr hf fun a _ _ => hm' a)

end Sys2Proof.Machine

/-! ### The gate of a configuration

Each check of R151 as the condition that it stands for, octet by octet. -/

namespace Sys2Proof.Machine

/-- Every descriptor of every capability octet, in both classes, satisfies `P` at its octet's index (R151). -/
abbrev EveryField (p : Params) (L : Layout) (P : Nat → Descriptor → Prop) : Prop :=
  ∀ (cls : FrameClass) (i : Nat), p.firstOctet ≤ i → i ≤ p.lastOctet → ∀ f ∈ layoutFields p L cls i, P i f

theorem everyOctet_all_iff (p : Params) (L : Layout) (check : Nat → Descriptor → Bool) :
    everyOctet p L (fun i ds => ds.all (check i)) = true ↔ EveryField p L fun i f => check i f = true := by
  simp only [everyOctet_iff, List.all_eq_true]

section

variable (p : Params) (L : Layout)

/-- WF1. -/
theorem wfInOctet_iff : wfInOctet p L = true ↔ EveryField p L fun i f =>
    8 * (i - p.firstOctet) + 1 ≤ f.start.toNat ∧ f.start.toNat ≤ f.stop.toNat ∧
      f.stop.toNat ≤ 8 * (i - p.firstOctet) + 8 := by
  simp only [wfInOctet, everyOctet_all_iff, Bool.and_eq_true, decide_eq_true_eq, and_assoc]
  exact Iff.rfl

/-- WF3. -/
theorem wfOneBit_iff : wfOneBit p L = true ↔ EveryField p L fun _ f => f.kind ≠ .coded → f.start = f.stop := by
  simp only [wfOneBit, everyOctet_all_iff, Bool.or_eq_true, decide_eq_true_eq, or_iff_not_imp_left, ne_eq]

/-- WF4 adds nothing: a range within an octet has at most 8 bits. -/
theorem wfWidth_of_wfInOctet (h : wfInOctet p L = true) : wfWidth p L = true := by
  rw [wfInOctet_iff] at h
  rw [wfWidth, everyOctet_all_iff]
  intro cls i hi hl f hf
  obtain ⟨hlo, hle, hhi⟩ := h cls i hi hl f hf
  have hwidth : f.stop.toNat - f.start.toNat + 1 ≤ 8 := by omega
  simp [hle, hwidth]

/-- WF5. -/
theorem wfReferences_iff : wfReferences p L = true ↔ EveryField p L fun _ f =>
    (f.kind = .rsv → f.aux = 0) ∧ (f.kind = .bool → ∃ q, labelPair L f.aux = some q) ∧
      (f.kind = .coded → ∃ t, tagTable L f.aux = some t) := by
  rw [wfReferences, everyOctet_all_iff]
  refine forall₅_congr fun cls i _ _ f => forall_congr' fun _ => ?_
  cases hk : f.kind <;> simp [hk, Option.isSome_iff_exists]

/-- WF6. -/
theorem wfTables_iff : wfTables p L = true ↔ ∀ t, some t ∈ L.tagTables → t.length ≤ p.ttMax := by
  rw [wfTables, List.all_eq_true]
  constructor
  · exact fun h t ht => of_decide_eq_true (h (some t) ht)
  · intro h t ht
    cases t with
    | none => rfl
    | some t => exact decide_eq_true (h t ht)

/-- The limits of the model's lists (log 5). -/
theorem wfShape_iff : wfShape p L = true ↔
    L.disDtc.length ≤ p.lastOctet - p.firstOctet + 1 ∧ L.dcs.length ≤ p.lastOctet - p.firstOctet + 1 ∧
      L.tagTables.length ≤ p.nTT ∧ L.labelPairs.length + 1 ≤ p.nLP := by
  simp only [wfShape, Bool.and_eq_true, decide_eq_true_eq, and_assoc]
  exact Iff.rfl

end

/-- Between descriptors that do not run backwards, rising from each to the next is rising from each to all later ones. -/
theorem risingFields_iff_pairwise {ds : List Descriptor} (h : ∀ f ∈ ds, f.start.toNat ≤ f.stop.toNat) :
    risingFields ds = true ↔ ds.Pairwise fun f g => f.stop.toNat < g.start.toNat := by
  induction ds with
  | nil => simp [risingFields]
  | cons f ds ih =>
    cases ds with
    | nil => simp [risingFields]
    | cons g ds =>
      obtain ⟨_, hg⟩ := List.forall_mem_cons.1 h
      rw [risingFields, Bool.and_eq_true, decide_eq_true_eq, ih hg, List.pairwise_cons (a := f)]
      refine and_congr_left fun hpair => ⟨fun hfg => ?_, fun hall => hall g List.mem_cons_self⟩
      obtain ⟨hlater, _⟩ := List.pairwise_cons.1 hpair
      have hgg := hg g List.mem_cons_self
      refine List.forall_mem_cons.2 ⟨hfg, fun e he => ?_⟩
      have hge := hlater e he
      omega

/-- WF2, in a layout that passes WF1. -/
theorem wfOrder_iff {p : Params} {L : Layout} (h : wfInOctet p L = true) : wfOrder p L = true ↔
    ∀ (cls : FrameClass) (i : Nat), p.firstOctet ≤ i → i ≤ p.lastOctet →
      (layoutFields p L cls i).Pairwise fun f g => f.stop.toNat < g.start.toNat := by
  rw [wfInOctet_iff] at h
  rw [wfOrder, everyOctet_iff]
  refine forall₄_congr fun cls i hi hl => risingFields_iff_pairwise fun f hf => ?_
  obtain ⟨_, hle, _⟩ := h cls i hi hl f hf
  exact hle

/-- Settles O27, check by check. -/
theorem onlyWellFormedLayoutsAreAccepted : Obligations.OnlyWellFormedLayoutsAreAccepted := by
  intro p L
  rw [accept_isSome_iff]
  simp only [layoutOk, Bool.and_eq_true]
  constructor
  · rintro ⟨⟨⟨⟨⟨⟨hshape, hin⟩, horder⟩, hone⟩, _⟩, href⟩, htables⟩
    rw [wfOrder_iff hin] at horder
    rw [wfInOctet_iff] at hin
    rw [wfOneBit_iff] at hone
    rw [wfReferences_iff] at href
    refine ⟨(wfShape_iff p L).1 hshape, fun cls i hi hl => ⟨fun f hf => ?_, horder cls i hi hl⟩,
      (wfTables_iff p L).1 htables⟩
    obtain ⟨hlo, hle, hhi⟩ := hin cls i hi hl f hf
    exact ⟨hlo, hle, hhi, hone cls i hi hl f hf, href cls i hi hl f hf⟩
  · rintro ⟨hshape, hoctets, htables⟩
    have hin : wfInOctet p L = true := (wfInOctet_iff p L).2 fun cls i hi hl f hf => by
      obtain ⟨hlo, hle, hhi, _⟩ := (hoctets cls i hi hl).1 f hf
      exact ⟨hlo, hle, hhi⟩
    have hone : wfOneBit p L = true := (wfOneBit_iff p L).2 fun cls i hi hl f hf => by
      obtain ⟨_, _, _, hone, _⟩ := (hoctets cls i hi hl).1 f hf
      exact hone
    have href : wfReferences p L = true := (wfReferences_iff p L).2 fun cls i hi hl f hf => by
      obtain ⟨_, _, _, _, href⟩ := (hoctets cls i hi hl).1 f hf
      exact href
    have horder : wfOrder p L = true := (wfOrder_iff hin).2 fun cls i hi hl => (hoctets cls i hi hl).2
    exact ⟨⟨⟨⟨⟨⟨(wfShape_iff p L).2 hshape, hin⟩, horder⟩, hone⟩, wfWidth_of_wfInOctet p L hin⟩, href⟩,
      (wfTables_iff p L).2 htables⟩

end Sys2Proof.Machine

/-! ### Command faults and their priority

A command that addresses a frame octet runs its checks in the order of R217 and then reads that octet; the commands differ
in their operands and in what they do with the octet. -/

namespace Sys2Proof.Machine

/-! #### The operand checks, by cause -/

theorem bitInRange_iff {p : Params} {b : BitNum} : bitInRange p b = true ↔ legalBit p b := by simp [bitInRange]

/-- BIT_RANGE comes before the other operand faults (R217). -/
theorem rangeFault_eq_bitRange {p : Params} {sb eb : BitNum} (h : ¬ (legalBit p sb ∧ legalBit p eb)) :
    rangeFault p sb eb = some .bitRange := by
  refine if_pos ?_
  rwa [Bool.not_eq_true', ← Bool.not_eq_true, Bool.and_eq_true, bitInRange_iff, bitInRange_iff]

/-- On legal bit numbers FIELD_ORDER comes before FIELD_SPAN (R217). -/
theorem rangeFault_eq_fieldOrder {p : Params} {sb eb : BitNum} (hs : legalBit p sb) (he : legalBit p eb)
    (h : eb.toNat < sb.toNat) : rangeFault p sb eb = some .fieldOrder := by
  have horder : eb < sb := h
  simp [rangeFault, bitInRange, hs, he, horder]

/-- On legal bit numbers in order, ends in two octets raise FIELD_SPAN (R217). -/
theorem rangeFault_eq_fieldSpan {p : Params} {sb eb : BitNum} (hs : legalBit p sb) (he : legalBit p eb)
    (hle : sb.toNat ≤ eb.toNat) (h : octetIndex p sb ≠ octetIndex p eb) : rangeFault p sb eb = some .fieldSpan := by
  have horder : ¬ eb < sb := hle.not_gt
  have hspan : octetOf p sb ≠ octetOf p eb := fun e => h (by rw [← octetOf_toNat hs, e, octetOf_toNat he])
  simp [rangeFault, bitInRange, hs, he, horder, hspan]

/-- BAD_TABLE, where it applies to the command (R138, R139). -/
def tableFault (i : Instr) (s : State) : Option FaultCode :=
  if faultApplies i s .badTable then some .badTable else none

/-! #### The commands that address a frame octet -/

/-- The answer is a completion: ERR and ECODE clear, FAULT and FCODE those of `s` (R212). -/
def Completes (s : State) (r : Result) : Prop :=
  ∃ t, r = .next t ∧ t.err = false ∧ t.ecode = .none ∧ t.fault = s.fault ∧ t.fcode = s.fcode

theorem completes_complete {s u : State} (hfault : u.fault = s.fault) (hfcode : u.fcode = s.fcode) :
    Completes s (complete u) := ⟨_, rfl, rfl, rfl, hfault, hfcode⟩

/-- Command `i` on `s` checks the range sb..eb, then its table, and hands the octet of sb to `k`, which completes. A
one-bit command is one whose range is one bit. -/
structure AddressesOctet (i : Instr) (s : State) (sb eb : BitNum) (k : Byte → Result) : Prop where
  operands : (bitOperands i = [sb] ∧ rangeOperands i = none ∧ eb = sb) ∨
    (bitOperands i = [sb, eb] ∧ rangeOperands i = some (sb, eb))
  target : targetOctet s.config.params i = some (octetIndex s.config.params sb)
  needed : byteNeeded i s = some (octetIndex s.config.params sb)
  exec_eq : exec i s =
    unlessFault (rangeFault s.config.params sb eb) s (unlessFault (tableFault i s) s (withTarget sb s k))
  completes : ∀ o, Completes s (k o)

/-- A one-bit command checks its bit number, then its table, and hands its octet on. -/
theorem AddressesOctet.ofBit {i : Instr} {s : State} {b : BitNum} {table : Option FaultCode} {k : Byte → Result}
    (hbit : bitOperands i = [b]) (hrange : rangeOperands i = none)
    (htarget : targetOctet s.config.params i = some (octetIndex s.config.params b))
    (hneeded : byteNeeded i s = some (octetIndex s.config.params b)) (htable : tableFault i s = table)
    (hexec : exec i s = unlessFault (bitFault s.config.params b) s (unlessFault table s (withTarget b s k)))
    (hk : ∀ o, Completes s (k o)) : AddressesOctet i s b b k :=
  ⟨.inl ⟨hbit, hrange, rfl⟩, htarget, hneeded, by rw [hexec, rangeFault_self, htable], hk⟩

/-- Every command but MAP and DECODE addresses a frame octet. -/
theorem addressesOctet (i : Instr) (s : State) :
    (∃ b, i = .map b) ∨ i = .decode ∨ ∃ sb eb k, AddressesOctet i s sb eb k := by
  cases i with
  | map b => exact .inl ⟨b, rfl⟩
  | decode => exact .inr (.inl rfl)
  | testbit b | setbit b _ | rsvchk b _ =>
    exact .inr (.inr ⟨b, b, _, .ofBit rfl rfl rfl rfl rfl rfl fun _ => completes_complete rfl rfl⟩)
  | getfield sb eb =>
    exact .inr (.inr ⟨sb, eb, _, .inr ⟨rfl, rfl⟩, rfl, rfl, rfl, fun _ => completes_complete rfl rfl⟩)
  | boolfld b d lp =>
    have hpair : tableFault (.boolfld b d lp) s = pairFault s lp := by
      cases h : labelPair s.config.layout.raw lp <;> simp [tableFault, faultApplies, pairFault, h]
    exact .inr (.inr ⟨b, b, _, .ofBit rfl rfl rfl rfl hpair rfl fun _ => completes_complete rfl rfl⟩)
  | codedfld sb eb d tt =>
    refine .inr (.inr ⟨sb, eb, fun o => complete (s.emit (renderCoded s.config.params sb eb d tt
      ((tagTable s.config.layout.raw tt).getD []) o .disDtc)), .inr ⟨rfl, rfl⟩, rfl, rfl, ?_,
      fun _ => completes_complete rfl rfl⟩)
    rw [exec, execCodedfld, tableFault, faultApplies]
    cases tagTable s.config.layout.raw tt <;> rfl

namespace AddressesOctet

variable {i : Instr} {s : State} {sb eb : BitNum} {k : Byte → Result}

/-- BIT_RANGE does not apply exactly when both ends are legal. -/
theorem bitRange_iff (h : AddressesOctet i s sb eb k) :
    faultApplies i s .bitRange = false ↔ legalBit s.config.params sb ∧ legalBit s.config.params eb := by
  rcases h.operands with ⟨hb, _, rfl⟩ | ⟨hb, _⟩ <;> simp [faultApplies, hb]

/-- FIELD_ORDER applies exactly when the ends are out of order. -/
theorem fieldOrder_iff (h : AddressesOctet i s sb eb k) :
    faultApplies i s .fieldOrder = true ↔ eb.toNat < sb.toNat := by
  rcases h.operands with ⟨_, hr, rfl⟩ | ⟨_, hr⟩ <;> simp [faultApplies, hr]

/-- FIELD_SPAN applies exactly when the ends lie in two octets. -/
theorem fieldSpan_iff (h : AddressesOctet i s sb eb k) :
    faultApplies i s .fieldSpan = true ↔ octetIndex s.config.params sb ≠ octetIndex s.config.params eb := by
  rcases h.operands with ⟨_, hr, rfl⟩ | ⟨_, hr⟩ <;> simp [faultApplies, hr]

/-- OUT_OF_FRAME applies exactly when the octet is absent. -/
theorem outOfFrame_iff (h : AddressesOctet i s sb eb k) :
    faultApplies i s .outOfFrame = true ↔ s.flen.toNat ≤ octetIndex s.config.params sb := by
  simp [faultApplies, h.target]

/-- The range is legal exactly when none of its three faults applies. -/
theorem legalRange_iff (h : AddressesOctet i s sb eb k) :
    legalRange s.config.params sb eb ↔ faultApplies i s .bitRange = false ∧ faultApplies i s .fieldOrder = false ∧
      faultApplies i s .fieldSpan = false := by
  rw [h.bitRange_iff, ← Bool.not_eq_true, h.fieldOrder_iff, ← Bool.not_eq_true, h.fieldSpan_iff, not_lt, not_not,
    and_assoc]

/-- Past the range and table checks the command is its access to the octet. -/
theorem exec_of_checks (h : AddressesOctet i s sb eb k) (hr : legalRange s.config.params sb eb)
    (ht : faultApplies i s .badTable = false) : exec i s = withTarget sb s k := by
  rw [h.exec_eq, rangeFault_eq_none hr, unlessFault_none, tableFault, ht]
  rfl

/-- The first fault that applies, in the order of R217, is the one that is raised. -/
theorem exec_of_reports (h : AddressesOctet i s sb eb k) {c : FaultCode} (hc : reports i s c) :
    exec i s = .next (faulted c s) := by
  obtain ⟨happlies, hprior⟩ := hc
  cases c with
  | none | illegalCmd | badLength | bus => cases happlies
  | bitRange =>
    have hillegal : ¬ (legalBit s.config.params sb ∧ legalBit s.config.params eb) := by
      rw [← h.bitRange_iff, happlies]
      exact nofun
    rw [h.exec_eq, rangeFault_eq_bitRange hillegal, unlessFault_some]
  | fieldOrder =>
    obtain ⟨hs, he⟩ := h.bitRange_iff.1 (hprior .bitRange (by decide))
    rw [h.exec_eq, rangeFault_eq_fieldOrder hs he (h.fieldOrder_iff.1 happlies), unlessFault_some]
  | fieldSpan =>
    obtain ⟨hs, he⟩ := h.bitRange_iff.1 (hprior .bitRange (by decide))
    have hle : sb.toNat ≤ eb.toNat := by
      rw [← not_lt, ← h.fieldOrder_iff, hprior .fieldOrder (by decide)]
      exact nofun
    rw [h.exec_eq, rangeFault_eq_fieldSpan hs he hle (h.fieldSpan_iff.1 happlies), unlessFault_some]
  | badTable =>
    have hr := h.legalRange_iff.2
      ⟨hprior .bitRange (by decide), hprior .fieldOrder (by decide), hprior .fieldSpan (by decide)⟩
    rw [h.exec_eq, rangeFault_eq_none hr, unlessFault_none, tableFault, if_pos happlies, unlessFault_some]
  | outOfFrame =>
    have hr := h.legalRange_iff.2
      ⟨hprior .bitRange (by decide), hprior .fieldOrder (by decide), hprior .fieldSpan (by decide)⟩
    rw [h.exec_of_checks hr (hprior .badTable (by decide))]
    refine withTarget_absent sb s k ?_
    rw [octetOf_toNat hr.1]
    exact h.outOfFrame_iff.1 happlies

/-- With no fault, the command reads the octet of sb, inside the frame, at the address the model computes. -/
theorem exec_of_no_fault (h : AddressesOctet i s sb eb k) (hn : ∀ c, faultApplies i s c = false) :
    exec i s = withTarget sb s k ∧ (octetOf s.config.params sb).toNat = octetIndex s.config.params sb ∧
      octetIndex s.config.params sb < s.flen.toNat := by
  have hr := h.legalRange_iff.2 ⟨hn _, hn _, hn _⟩
  refine ⟨h.exec_of_checks hr (hn _), octetOf_toNat hr.1, ?_⟩
  rw [← not_le, ← h.outOfFrame_iff, hn]
  exact nofun

theorem exec_unwritten (h : AddressesOctet i s sb eb k) (hn : ∀ c, faultApplies i s c = false)
    (hread : s.readFb (octetIndex s.config.params sb) = none) : exec i s = .fault .uninit := by
  obtain ⟨e, hoctet, hlen⟩ := h.exec_of_no_fault hn
  rw [← hoctet] at hlen hread
  rw [e, withTarget_unwritten sb s k hlen hread]

theorem exec_written (h : AddressesOctet i s sb eb k) (hn : ∀ c, faultApplies i s c = false) {o : Byte}
    (hread : s.readFb (octetIndex s.config.params sb) = some o) : Completes s (exec i s) := by
  obtain ⟨e, hoctet, hlen⟩ := h.exec_of_no_fault hn
  rw [← hoctet] at hlen hread
  rw [e, withTarget_present sb s k o ⟨hlen, hread⟩]
  exact h.completes o

end AddressesOctet

/-! #### MAP and DECODE -/

theorem bitRange_map_iff (b : BitNum) (s : State) :
    faultApplies (.map b) s .bitRange = false ↔ legalBit s.config.params b := by
  simp [faultApplies, bitOperands]

/-- BIT_RANGE is MAP's only fault (R112). -/
theorem exec_map_of_faultApplies {b : BitNum} {s : State} {c : FaultCode} (h : faultApplies (.map b) s c = true) :
    exec (.map b) s = .next (faulted c s) := by
  cases c with
  | bitRange =>
    have hillegal : ¬ legalBit s.config.params b := by
      rw [← bitRange_map_iff, h]
      exact nofun
    change unlessFault (bitFault s.config.params b) s _ = _
    rw [← rangeFault_self, rangeFault_eq_bitRange fun hl => hillegal hl.1, unlessFault_some]
  | _ => cases h

theorem exec_map_completes {b : BitNum} {s : State} (h : faultApplies (.map b) s .bitRange = false) :
    Completes s (exec (.map b) s) := by
  rw [exec_map_legal ((bitRange_map_iff b s).1 h)]
  exact ⟨_, rfl, rfl, rfl, rfl, rfl⟩

/-- No fault of R211 applies to DECODE. -/
theorem faultApplies_decode (s : State) (c : FaultCode) : faultApplies .decode s c = false := by
  cases c <;> rfl

/-- DECODE needs byte 2 exactly when the frame has it (R153). -/
theorem frameClass_eq_none_iff (s : State) :
    frameClass s = none ↔ ∃ k, byteNeeded .decode s = some k ∧ s.readFb k = none := by
  by_cases h : s.flen.toNat < 3 <;> simp [frameClass, byteNeeded, h]

theorem exec_decode_completes {s : State} {cls : FrameClass} (h : frameClass s = some cls) :
    Completes s (exec .decode s) := by
  rw [exec_decode_of_class h]
  exact ⟨_, rfl, rfl, rfl, rfl, rfl⟩

/-! #### Every command -/

/-- A decode step in which a fault applies is the first such fault, whatever the command. -/
theorem exec_of_reports {i : Instr} {s : State} {c : FaultCode} (h : reports i s c) :
    exec i s = .next (faulted c s) := by
  rcases addressesOctet i s with ⟨b, rfl⟩ | rfl | ⟨sb, eb, k, hi⟩
  · exact exec_map_of_faultApplies h.1
  · exact absurd (faultApplies_decode s c) (ne_true_of_eq_false · h.1)
  · exact hi.exec_of_reports h

/-- With no fault, an unwritten byte that the command needs stops the machine (R216). -/
theorem exec_unwritten {i : Instr} {s : State} (hn : ∀ c, faultApplies i s c = false) {k : Nat}
    (hk : byteNeeded i s = some k) (hread : s.readFb k = none) : exec i s = .fault .uninit := by
  rcases addressesOctet i s with ⟨b, rfl⟩ | rfl | ⟨sb, eb, k', hi⟩
  · cases hk
  · exact exec_decode_of_no_class ((frameClass_eq_none_iff s).2 ⟨k, hk, hread⟩)
  · cases hi.needed.symm.trans hk
    exact hi.exec_unwritten hn hread

/-- With no fault and every byte that it needs written, a command completes (R212). -/
theorem exec_completes {i : Instr} {s : State} (hn : ∀ c, faultApplies i s c = false)
    (hneeded : ∀ k, byteNeeded i s = some k → (s.readFb k).isSome = true) : Completes s (exec i s) := by
  rcases addressesOctet i s with ⟨b, rfl⟩ | rfl | ⟨sb, eb, k, hi⟩
  · exact exec_map_completes (hn _)
  · cases hc : frameClass s with
    | none =>
      obtain ⟨k, hk, hread⟩ := (frameClass_eq_none_iff s).1 hc
      exact absurd (hneeded k hk) (by simp [hread])
    | some cls => exact exec_decode_completes hc
  · obtain ⟨o, hread⟩ := Option.isSome_iff_exists.1 (hneeded _ hi.needed)
    exact hi.exec_written hn hread

/-- In PENDING a word that decodes to no command raises ILLEGAL_CMD (R84, R85). -/
theorem engineStep_illegal {s : State} {e : DecodeError} (hp : s.phase = .pending) (hd : decodeCmd s.cmdq = .error e) :
    engineStep s = .next (faulted .illegalCmd s) := by
  unfold engineStep
  simp only [hp, hd, commandFault_eq]

/-- Settles O28: MAP and DECODE apart, every command runs the same checks in the order of R217. -/
theorem commandFaultsFollowThePriority : Obligations.CommandFaultsFollowThePriority :=
  ⟨fun _ _ hp hd => engineStep_illegal hp hd, fun _ _ _ h => exec_of_reports h,
    fun _ _ hn => ⟨fun _ hk hread => exec_unwritten hn hk hread, exec_completes hn⟩⟩

end Sys2Proof.Machine

/-! ### FAULT and FCODE

What each operation does to the two sticky fields, and what it does whatever they hold. -/

namespace Sys2Proof.Machine

/-! #### The first fault is kept -/

/-- From `s` to `t`, FAULT and FCODE stay, or a first fault sets both (R213). -/
def FaultSticks (s t : State) : Prop :=
  (t.fault = s.fault ∧ t.fcode = s.fcode) ∨ (s.fault = false ∧ t.fault = true ∧ t.fcode ≠ .none)

theorem FaultSticks.hostFaulted (s : State) {c : FaultCode} (hc : c ≠ .none) : FaultSticks s (hostFaulted c s) := by
  cases hf : s.fault with
  | true => exact .inl ⟨hf.symm, if_pos hf⟩
  | false => exact .inr ⟨hf, rfl, by simpa [Machine.hostFaulted, hf] using hc⟩

/-- A command fault writes FAULT and FCODE as a host-access fault does. -/
theorem FaultSticks.faulted (s : State) {c : FaultCode} (hc : c ≠ .none) : FaultSticks s (faulted c s) :=
  FaultSticks.hostFaulted s hc

/-- No write that takes effect touches FAULT or FCODE. -/
theorem faultSticks_applyWrite (w : HostWrite) (s : State) : FaultSticks s (applyWrite w s) := by
  rcases applyWrite_cases w s with ⟨i, _, _, e⟩ | ⟨i, _, _, e⟩ | ⟨_, e⟩ | ⟨_, e⟩ | ⟨_, e⟩ <;> rw [e] <;>
    exact .inl ⟨rfl, rfl⟩

theorem faultSticks_of_exec {i : Instr} {s t : State} (h : exec i s = .next t) : FaultSticks s t := by
  rcases exec_cases i s t h with
    ⟨c, rfl, ⟨hc, _⟩, _⟩ | ⟨_, v, rfl⟩ | ⟨b, v, o, _, _, _, rfl⟩ | ⟨_, rs, rfl, _⟩ | ⟨_, cls, rfl⟩
  · exact .faulted s hc
  all_goals exact .inl ⟨rfl, rfl⟩

theorem faultSticks_of_walkStep {s t : State} (h : walkStep s = .next t) : FaultSticks s t := by
  rcases walkStep_cases s with ⟨_, e⟩ | ⟨_, _, e⟩ | ⟨_, _, _, e⟩ | ⟨o, _, _, _, e⟩ | ⟨o, _, _, _, e⟩ <;>
    rw [e] at h <;> cases h <;> exact .inl ⟨rfl, rfl⟩

theorem faultSticks_of_engineStep {s t : State} (h : engineStep s = .next t) : FaultSticks s t := by
  rcases engineStep_cases s with ⟨_, e⟩ | ⟨i, _, _, e⟩ | ⟨_, _, _, e⟩ | ⟨_, e⟩ <;> rw [e] at h
  · cases h
    exact .inl ⟨rfl, rfl⟩
  · exact faultSticks_of_exec h
  · cases h
    exact .faulted s nofun
  · exact faultSticks_of_walkStep h

theorem faultSticks_of_hostWrite {w : HostWrite} {s t : State} (h : hostWrite w s = .next t) : FaultSticks s t := by
  rcases hostWrite_cases w s with ⟨c, hf, e⟩ | ⟨_, _, e⟩ | ⟨_, _, e⟩ <;> rw [e] at h <;> cases h
  · exact .hostFaulted s (writeFault_ne_none hf)
  · exact .inl ⟨rfl, rfl⟩
  · exact faultSticks_applyWrite w s

theorem faultSticks_of_hostOp {op : HostOp} {s t : State} (h : hostOp op s = .next t) : FaultSticks s t := by
  cases op with
  | read r =>
    change hostRead r s = _ at h
    rcases hostRead_cases r s with ⟨c, hf, e⟩ | ⟨_, _, e⟩ | ⟨v, _, _, e⟩ <;> rw [e] at h <;> cases h
    · exact FaultSticks.hostFaulted s (readFault_ne_none hf)
    · exact .inl ⟨rfl, rfl⟩
  | write w => exact faultSticks_of_hostWrite h
  | wait =>
    unfold hostOp at h
    cases h
    split <;> exact .inl ⟨rfl, rfl⟩

theorem faultSticks_of_hostTurn {s t : State} (h : hostTurn s = .next t) : FaultSticks s t := by
  rcases hostTurn_cases s with ⟨_, _, _, e⟩ | ⟨w, _, _, e⟩ | ⟨_, _, e⟩ | ⟨op, ops, _, _, e⟩ <;> rw [e] at h
  · cases h
    exact .inl ⟨rfl, rfl⟩
  · exact faultSticks_of_hostWrite (s := { s with held := none }) h
  · cases h
    exact .inl ⟨rfl, rfl⟩
  · exact faultSticks_of_hostOp (s := { s with hostQueue := ops }) h

/-- A step is a RESET, which clears both fields, or keeps the first fault. -/
theorem step_faultSticks_or_reset {s t : State} (h : step s = .next t) :
    (FaultSticks s t ∧ s.schedule.head? ≠ some .reset) ∨
    (s.schedule.head? = some .reset ∧ t.fault = false ∧ t.fcode = .none) := by
  obtain ⟨ts, ⟨e, hr⟩ | ⟨e, hr⟩ | ⟨e, hr⟩⟩ := step_cases s <;> rw [e] at h
  · exact .inl ⟨faultSticks_of_hostTurn (s := { s with schedule := ts }) h, hr⟩
  · exact .inl ⟨faultSticks_of_engineStep (s := { s with schedule := ts }) h, hr⟩
  · cases h
    exact .inr ⟨hr, rfl, rfl⟩

/-- Settles O29, by whether the step is a RESET, and by what became of the two fields where it is not. -/
theorem firstFaultIsSticky : Obligations.FirstFaultIsSticky := by
  intro s t h
  rcases step_faultSticks_or_reset h with ⟨⟨hfault, hfcode⟩ | ⟨hclear, _, hcode⟩, hr⟩ | ⟨hr, hfault, hfcode⟩
  · exact ⟨fun _ hs => ⟨hfault.trans hs, hfcode⟩, fun hs ht => absurd (hfault.symm.trans ht) (by simp [hs]),
      fun h => absurd h hr⟩
  · exact ⟨fun _ hs => absurd (hclear.symm.trans hs) nofun, fun _ _ => hcode, fun h => absurd h hr⟩
  · exact ⟨fun h => absurd hr h, fun _ ht => absurd (hfault.symm.trans ht) nofun, fun _ => ⟨hfault, hfcode⟩⟩

/-! #### No operation looks at them

Two runs of one operation, from states that differ in FAULT and FCODE only. -/

/-- `s` with other values of FAULT and FCODE. -/
abbrev State.setFault (s : State) (f : Bool) (c : FaultCode) : State := { s with fault := f, fcode := c }

section

variable (s : State) (f : Bool) (c : FaultCode)

theorem ignoringFault_commandFault_setFault (c' : FaultCode) :
    ignoringFault (commandFault c' (s.setFault f c)) = ignoringFault (commandFault c' s) := by
  rw [commandFault_eq, commandFault_eq]
  rfl

/-- An operand check that comes out alike in both runs leaves the two continuations to compare. -/
theorem ignoringFault_unlessFault_setFault (check : Option FaultCode) {k k' : Result}
    (h : ignoringFault k' = ignoringFault k) :
    ignoringFault (unlessFault check (s.setFault f c) k') = ignoringFault (unlessFault check s k) := by
  cases check with
  | none => exact h
  | some c' => exact ignoringFault_commandFault_setFault s f c c'

theorem ignoringFault_withTarget_setFault (b : BitNum) {k k' : Byte → Result}
    (h : ∀ o, ignoringFault (k' o) = ignoringFault (k o)) :
    ignoringFault (withTarget b (s.setFault f c) k') = ignoringFault (withTarget b s k) := by
  rcases withTarget_cases b s k with ⟨hf, e⟩ | ⟨hf, hr, e⟩ | ⟨o, ho, e⟩
  · rw [e, withTarget_absent b (s.setFault f c) k' hf]
    rfl
  · rw [e, withTarget_unwritten b (s.setFault f c) k' hf hr]
  · rw [e, withTarget_present b (s.setFault f c) k' o ho]
    exact h o

/-- The decode step of every command goes the same way whatever FAULT and FCODE hold. -/
theorem ignoringFault_exec_setFault (i : Instr) :
    ignoringFault (exec i (s.setFault f c)) = ignoringFault (exec i s) := by
  cases i with
  | map b => exact ignoringFault_unlessFault_setFault s f c _ rfl
  | testbit b | setbit b _ | rsvchk b _ | getfield b _ =>
    exact ignoringFault_unlessFault_setFault s f c _ (ignoringFault_withTarget_setFault s f c b fun _ => rfl)
  | boolfld b d lp =>
    exact ignoringFault_unlessFault_setFault s f c _ (ignoringFault_unlessFault_setFault s f c (pairFault s lp)
      (ignoringFault_withTarget_setFault s f c b fun _ => rfl))
  | codedfld sb eb d tt =>
    refine ignoringFault_unlessFault_setFault s f c _ ?_
    cases tagTable s.config.layout.raw tt with
    | none => exact ignoringFault_commandFault_setFault s f c .badTable
    | some t => exact ignoringFault_withTarget_setFault s f c sb fun _ => rfl
  | decode =>
    cases hc : frameClass s with
    | none => rw [exec_decode_of_no_class hc, exec_decode_of_no_class (s := s.setFault f c) hc]
    | some cls =>
      rw [exec_decode_of_class hc, exec_decode_of_class (s := s.setFault f c) hc]
      rfl

theorem ignoringFault_walkStep_setFault :
    ignoringFault (walkStep (s.setFault f c)) = ignoringFault (walkStep s) := by
  rcases walkStep_cases s with
    ⟨hend, e⟩ | ⟨hend, hf, _⟩ | ⟨hend, hf, hr, e⟩ | ⟨o, hend, ho, hext, e⟩ | ⟨o, hend, ho, hext, e⟩
  · rw [e, walkStep_end (s := s.setFault f c) hend]
    rfl
  · rw [walkStep_absent hend hf, walkStep_absent (s := s.setFault f c) hend hf]
    rfl
  · rw [e, walkStep_unwritten (s := s.setFault f c) hend hf hr]
  · rw [e, walkStep_present (s := s.setFault f c) hend ho, if_pos hext]
    rfl
  · rw [e, walkStep_present (s := s.setFault f c) hend ho, if_neg (ne_true_of_eq_false hext)]
    rfl

/-- An idle engine takes no step (R26). -/
theorem engineStep_idle {s : State} (hi : s.phase = .idle) : engineStep s = .next s := by
  unfold engineStep
  simp only [hi]

theorem ignoringFault_engineStep_setFault :
    ignoringFault (engineStep (s.setFault f c)) = ignoringFault (engineStep s) := by
  rcases engineStep_cases s with ⟨hi, e⟩ | ⟨i, hp, hd, e⟩ | ⟨_, hp, hd, e⟩ | ⟨hw, e⟩ <;> rw [e]
  · rw [engineStep_idle (s := s.setFault f c) hi]
    rfl
  · rw [engineStep_pending (s := s.setFault f c) hp hd]
    exact ignoringFault_exec_setFault s f c i
  · rw [engineStep_illegal (s := s.setFault f c) hp hd]
    rfl
  · rw [engineStep_walk (s := s.setFault f c) hw]
    exact ignoringFault_walkStep_setFault s f c

/-- A write that takes effect carries FAULT and FCODE along. -/
theorem applyWrite_setFault (w : HostWrite) : applyWrite w (s.setFault f c) = (applyWrite w s).setFault f c := by
  unfold applyWrite
  cases target s.config w.off with
  | fb i => by_cases hw : w.width = 8 <;> simp [hw] <;> rfl
  | _ => rfl

theorem ignoringFault_hostWrite_setFault (w : HostWrite) :
    ignoringFault (hostWrite w (s.setFault f c)) = ignoringFault (hostWrite w s) := by
  change ignoringFault (hostOp (.write w) (s.setFault f c)) = _
  rcases hostWrite_cases w s with ⟨c', hf, e⟩ | ⟨hf, hb, e⟩ | ⟨hf, hb, e⟩ <;> rw [e]
  · rw [hostOp_write_fault (s := s.setFault f c) hf]
    rfl
  · rw [hostOp_write_busy (s := s.setFault f c) hf hb]
    rfl
  · rw [hostOp_write_idle (s := s.setFault f c) hf ((busy_eq_false_iff s).1 hb), applyWrite_setFault]
    rfl

end

/-- Settles O30: the outcomes agree operation by operation. -/
theorem faultsDoNotAffectExecution : Obligations.FaultsDoNotAffectExecution :=
  fun s f c => ⟨ignoringFault_engineStep_setFault s f c, ignoringFault_hostWrite_setFault s f c⟩

end Sys2Proof.Machine

/-! ### Reads of unwritten bytes -/

namespace Sys2Proof.Machine

/-- A read that does not fault and has no value stops the machine (R216). -/
theorem hostOp_read_unwritten {s : State} {r : HostRead} (h : readFault s.config r = none) (hv : readValue s r = none) :
    hostOp (.read r) s = .fault .uninit := by
  simp only [hostOp, hostRead, h, hv]

/-- A word has no value when any of its four bytes is unwritten (R216). -/
theorem readWord_eq_none {s : State} {i j : Nat} (hj : j < 4) (hr : s.readFb (i + j) = none) : readWord s i = none := by
  unfold readWord
  split
  next h0 h1 h2 h3 => interval_cases j <;> simp_all
  next => rfl

/-- Settles O31: the walk's octet, and a byte or an aligned word inside FB, whose read has a legal shape. -/
theorem unwrittenBytesStopTheMachine : Obligations.UnwrittenBytesStopTheMachine := by
  refine ⟨fun s hw hend hlen hr => ?_, fun s off hoff hr => ?_, fun s off j halign hoff hj hr => ?_⟩
  · rw [engineStep_walk hw, walkStep_unwritten hend hlen hr]
  · have ht := target_fb s.config off hoff
    exact hostOp_read_unwritten (by simp [readFault, ht, fbShapeOk, busUnless]) (by simp [readValue, ht, hr])
  · have ht := target_fb s.config off (by omega)
    exact hostOp_read_unwritten (by simp [readFault, ht, fbShapeOk, busUnless, halign, hoff])
      (by simp [readValue, ht, readWord_eq_none hj hr])

end Sys2Proof.Machine

/-! ### Turns, waiting and RESET

One rule for each turn the schedule can name, and one each for a busy and an idle machine with none; then what a waiting
host and a RESET leave. -/

namespace Sys2Proof.Machine

section

variable {s : State} {ts : List Turn}

/-- A scheduled engine turn is the engine's step (log 8). -/
theorem step_of_schedule_engine (hs : s.schedule = .engine :: ts) : step s = engineStep { s with schedule := ts } := by
  simp only [step, takeTurn, hs]

/-- A scheduled host turn is the host's (log 8). -/
theorem step_of_schedule_host (hs : s.schedule = .host :: ts) : step s = hostTurn { s with schedule := ts } := by
  simp only [step, takeTurn, hs]

/-- A scheduled RESET comes whatever the machine is doing (R240). -/
theorem step_of_schedule_reset (hs : s.schedule = .reset :: ts) :
    step s = .next (resetAction { s with schedule := ts }) := by
  simp only [step, takeTurn, hs]

/-- With no turn scheduled, an idle machine's step is the host's turn (log 8). -/
theorem step_not_busy (hs : s.schedule = []) (hb : s.busy = false) : step s = hostTurn s := by
  simp [step, takeTurn, hs, hb]

/-- With no write held and nothing to issue, the host's turn passes (R26). -/
theorem hostTurn_nothing_to_do (hh : s.held = none) (hq : s.hostQueue = []) : hostTurn s = .next s := by
  simp only [hostTurn, hh, hq]

end

/-- RESET leaves every byte of FB unwritten (R240). -/
@[simp] theorem readFb_resetAction (s : State) (a : Nat) : (resetAction s).readFb a = none := rfl

/-- RESET gives every field of STATUS its reset value, so the word is the reset state's (R25, R37, R240). -/
@[simp] theorem statusWord_resetAction (s : State) : statusWord (resetAction s) = 0 := by
  have as_reset : statusWord (resetAction s) = statusWord State.reset := rfl
  have reset_word : statusWord State.reset = 0 := rfl
  rw [as_reset, reset_word]

/-- Settles O56: the host turn of a busy machine waits, or issues an operation of which no write takes effect. -/
theorem hostTurnsLeaveTheEngineAlone : Obligations.HostTurnsLeaveTheEngineAlone :=
  fun _ _ hb h => sameButHost_of_hostTurn hb h

/-- Settles O2, a rule for each way the schedule can begin. -/
theorem stepTakesTheScheduledTurn : Obligations.StepTakesTheScheduledTurn :=
  fun s _ => ⟨step_of_schedule_engine, step_of_schedule_host, step_of_schedule_reset, step_busy s, step_not_busy⟩

/-- Settles O58: the next state is the reset action's, field by field. -/
theorem resetClearsTheBlock : Obligations.ResetClearsTheBlock := by
  intro s ts hs
  refine ⟨_, step_of_schedule_reset hs, readFb_resetAction _, ?_⟩
  simp only [resetAction_flen, resetAction_cmdq, resetAction_res, statusWord_resetAction, resetAction_term,
    resetAction_fault, resetAction_fcode, resetAction_cls, resetAction_oi, resetAction_err, resetAction_ecode,
    resetAction_phase, resetAction_held, resetAction_out, resetAction_config, and_self]

/-- Settles O60: an idle machine's step is the host's turn, and the host has nothing to do. -/
theorem idleMachineWaits : Obligations.IdleMachineWaits := by
  intro s hp hh hq hs
  rw [step_not_busy hs ((busy_eq_false_iff s).2 hp)]
  exact hostTurn_nothing_to_do hh hq

end Sys2Proof.Machine
